-- ==== Sys2Proof/Word.lean ====
section
/-! DEFINITION. The word types of the Sprint-Challenge CPU core (00_scope.md R6, R9). -/

namespace Sys2Proof

/-- One byte: a register, a memory cell, an opcode, an operand byte, `FL` (R6, R21, R30, R45). -/
abbrev Byte := BitVec 8

/-- The 9-bit width of `pc`, `fault.fpc` and `fault.info` (R25, R35). -/
abbrev PcWord := BitVec 9

end Sys2Proof
end

