-- ==== Sys2Proof/Config.lean ====
section
/-! DEFINITION. What an implementation fixes: the one open parameter of R7. The other parameters of R6 have one value each and stand in
the definitions as the rules write them: 8 registers of 8 bits, 256 memory cells, a 9-bit `pc`. -/

namespace Sys2Proof

/-- `UNKNOWN_OPCODE_POLICY` of R7: what a byte that is not an opcode does when it is fetched as one (R108). -/
inductive UnknownOpcodePolicy where
  /-- The byte raises `UNKNOWN_OPCODE` (the default of R7). -/
  | fault
  /-- The byte advances `pc` by 1 with no other effect (the source's legacy behaviour). -/
  | legacyNop
  deriving DecidableEq, Repr

/-- The parameters left open for the model to take as an argument: exactly one (R7).
A machine carries its configuration in its state and no step writes it (log 1). -/
structure Config where
  unknownOpcodePolicy : UnknownOpcodePolicy
  deriving DecidableEq, Repr

/-- The default of R7. -/
def Config.default : Config := { unknownOpcodePolicy := .fault }

end Sys2Proof
end

