-- ==== Sys2Proof/Syntax.lean ====
section
/-! DEFINITION. The instruction set: the eight opcodes of R2 with the operands of R70, and the opcode map of R72. -/

namespace Sys2Proof

/-- An instruction: one constructor per row of spec/opcode_table.json. A register operand is the whole operand byte,
which may name no register (R68); an immediate is a byte used unchanged (R69). -/
inductive Instr where
  | hlt
  | ldi (reg imm : Byte)
  | mul (regA regB : Byte)
  | prn (reg : Byte)
  | cmp (regA regB : Byte)
  | jmp (reg : Byte)
  | jeq (reg : Byte)
  | jne (reg : Byte)
  deriving DecidableEq, Repr

/-- The eight opcodes (R2), apart from their operands. -/
inductive Opcode where
  | hlt | ldi | mul | prn | cmp | jmp | jeq | jne
  deriving DecidableEq, Repr

/-- The four formats of R66. -/
inductive Format where
  /-- no operand -/
  | z
  /-- one register -/
  | r
  /-- register, immediate -/
  | ri
  /-- two registers -/
  | rr
  deriving DecidableEq, Repr

/-- The opcodes in the order of R72. -/
def Opcode.all : List Opcode := [.hlt, .ldi, .mul, .prn, .cmp, .jmp, .jeq, .jne]

/-- The format column of R72. -/
def Opcode.format : Opcode → Format
  | .hlt => .z
  | .ldi => .ri
  | .mul => .rr
  | .prn => .r
  | .cmp => .rr
  | .jmp => .r
  | .jeq => .r
  | .jne => .r

/-- How many operand bytes follow the opcode (R66, R70). -/
def Format.operands : Format → Nat
  | .z => 0
  | .r => 1
  | .ri => 2
  | .rr => 2

/-- The opcode of an instruction. -/
def Instr.opcode : Instr → Opcode
  | .hlt => .hlt
  | .ldi _ _ => .ldi
  | .mul _ _ => .mul
  | .prn _ => .prn
  | .cmp _ _ => .cmp
  | .jmp _ => .jmp
  | .jeq _ => .jeq
  | .jne _ => .jne

/-- An instruction's length in bytes: the opcode byte and its operand bytes (R65, R70). -/
def Instr.length (i : Instr) : Nat := 1 + i.opcode.format.operands

/-- The mnemonic column of R72. -/
def Opcode.mnemonic : Opcode → String
  | .hlt => "HLT"
  | .ldi => "LDI"
  | .mul => "MUL"
  | .prn => "PRN"
  | .cmp => "CMP"
  | .jmp => "JMP"
  | .jeq => "JEQ"
  | .jne => "JNE"

end Sys2Proof
end

