-- ==== Sys2Proof/WellFormed.lean ====
section
/-! DEFINITION. Which instructions are well formed: those whose every register operand names a register (R68, R77).
The decoder also gives instructions that are not: an operand byte of 8..255 decodes, and faults where it is used (R76, R23). -/

namespace Sys2Proof

/-- R68: "Values 0..7 name `x[0]`..`x[7]`. Values 8..255 name no register". -/
def namesRegister (b : Byte) : Bool := decide (b.toNat < 8)

/-- Every register operand of the instruction names a register; an immediate may be any byte (R69). -/
def Instr.wellFormed : Instr → Bool
  | .hlt => true
  | .ldi reg _ => namesRegister reg
  | .mul regA regB => namesRegister regA && namesRegister regB
  | .prn reg => namesRegister reg
  | .cmp regA regB => namesRegister regA && namesRegister regB
  | .jmp reg => namesRegister reg
  | .jeq reg => namesRegister reg
  | .jne reg => namesRegister reg

end Sys2Proof
end

