-- ==== Sys2Proof/Decode.lean ====
section
/-! DEFINITION. The decoder (R66, R67, R70, R76) and, after it, the encoder written from the same table (R72). -/

namespace Sys2Proof

/-- The opcode map of R72: the one byte that selects each opcode. -/
def Opcode.byte : Opcode → Byte
  | .hlt => 0x01
  | .ldi => 0x82
  | .mul => 0xA2
  | .prn => 0x47
  | .cmp => 0xA7
  | .jmp => 0x54
  | .jeq => 0x55
  | .jne => 0x56

/-- R67, R103: exact equality of all 8 bits with a row of R72, and no sub-field decoded separately (R73). -/
def opcodeOfByte (b : Byte) : Option Opcode := Opcode.all.find? (fun o => o.byte == b)

/-- What the bytes from an address on decode to. Decoding is total (R76), and a rejection has a name. -/
inductive Decoded where
  /-- One of the eight instructions, with its operand bytes. -/
  | instr (i : Instr)
  /-- The opcode byte is none of the eight (R74); no operand byte is read (R53). -/
  | unknownOpcode (op : Byte)
  /-- The byte at this offset from the opcode's address does not exist; it is the first such byte in the order of R53. -/
  | missingByte (offset : Nat)
  deriving DecidableEq, Repr

/-- Format `R` (R66): one operand byte, at offset 1. -/
def decodeR (readByte : Nat → Option Byte) (build : Byte → Instr) : Decoded :=
  match readByte 1 with
  | none => .missingByte 1
  | some a => .instr (build a)

/-- Formats `RI` and `RR` (R66): operand0 at offset 1, read first, then operand1 at offset 2 (R53). -/
def decodeRR (readByte : Nat → Option Byte) (build : Byte → Byte → Instr) : Decoded :=
  match readByte 1 with
  | none => .missingByte 1
  | some a =>
    match readByte 2 with
    | none => .missingByte 2
    | some b => .instr (build a b)

/-- The decoder: `readByte k` gives the byte at offset `k` from the opcode's address, or `none` where there is none.
It reads in the order of R53: the opcode, then every operand byte the opcode has, in address order. -/
def decodeFrom (readByte : Nat → Option Byte) : Decoded :=
  match readByte 0 with
  | none => .missingByte 0
  | some op =>
    match opcodeOfByte op with
    | none => .unknownOpcode op
    | some .hlt => .instr .hlt
    | some .ldi => decodeRR readByte .ldi
    | some .mul => decodeRR readByte .mul
    | some .prn => decodeR readByte .prn
    | some .cmp => decodeRR readByte .cmp
    | some .jmp => decodeR readByte .jmp
    | some .jeq => decodeR readByte .jeq
    | some .jne => decodeR readByte .jne

/-- Decoding the first instruction of a list of bytes. -/
def decode (bytes : List Byte) : Decoded := decodeFrom (fun k => bytes[k]?)

/-- The encoder: the opcode byte and then the operand bytes, at increasing addresses (R66, R50). -/
def encode (i : Instr) : List Byte :=
  match i with
  | .hlt => [i.opcode.byte]
  | .ldi reg imm => [i.opcode.byte, reg, imm]
  | .mul regA regB => [i.opcode.byte, regA, regB]
  | .prn reg => [i.opcode.byte, reg]
  | .cmp regA regB => [i.opcode.byte, regA, regB]
  | .jmp reg => [i.opcode.byte, reg]
  | .jeq reg => [i.opcode.byte, reg]
  | .jne reg => [i.opcode.byte, reg]

/-- The bytes of a sequence of instructions packed byte after byte (R29). -/
def encodeAll : List Instr → List Byte
  | [] => []
  | i :: rest => encode i ++ encodeAll rest

/-- Decoding a whole list of bytes as instructions packed byte after byte (R29): `none` where some byte is no opcode, an operand
byte is missing, or more than `fuel` instructions stand there. -/
def decodeAll : Nat → List Byte → Option (List Instr)
  | _, [] => some []
  | 0, _ :: _ => none
  | fuel + 1, b :: bytes =>
    match decode (b :: bytes) with
    | .instr i => (decodeAll fuel ((b :: bytes).drop i.length)).map (i :: ·)
    | .unknownOpcode _ => none
    | .missingByte _ => none

/-- Byte `k` of an instruction whose bits are `w`, as spec/opcode_table.json numbers them: bit 0 is the least significant bit of
the first byte, and a later byte's bits count on from it. -/
def tableByte (w k : Nat) : Byte := BitVec.ofNat 8 (w >>> (8 * k))

/-- The three bytes of the longest instruction (R65) that `w` gives, every bit above `nbits` zero. -/
def tableBytes (nbits w : Nat) : List Byte :=
  [tableByte (w % 2 ^ nbits) 0, tableByte (w % 2 ^ nbits) 1, tableByte (w % 2 ^ nbits) 2]

/-- The instruction this decoder reads from a word of the opcode table. -/
def decodeTableWord (nbits w : Nat) : Option Instr :=
  match decode (tableBytes nbits w) with
  | .instr i => some i
  | .unknownOpcode _ => none
  | .missingByte _ => none

end Sys2Proof
end

