-- ==== Sys2Proof/Machine/State.lean ====
section
/-! DEFINITION. The machine's state as plain data: every piece of state 10_state.md names, the input lines of its interface,
and the configuration; the reasons a step can stop; and the state after reset. -/

namespace Sys2Proof.Machine

/-- The run status of R34. -/
inductive Status where
  /-- the core executes one instruction per step -/
  | running
  /-- a HLT was executed; terminal -/
  | halted
  /-- a fault was raised; terminal -/
  | faulted
  deriving DecidableEq, Repr

/-- The fault causes of R145 (codes 1 to 4; code 0, no fault, is `none` in the record; codes 5..7 are never used). -/
inductive FaultCause where
  /-- a `MemRead` at address 256 or more (R146) -/
  | memRange
  /-- a register use through an operand byte of 8 or more (R147) -/
  | regRange
  /-- an unknown opcode under the policy `Fault` (R148) -/
  | unknownOpcode
  /-- the ALU operation select 0b11 (R149) -/
  | unsupportedAlu
  deriving DecidableEq, Repr

/-- The fault record of R35. `cause = none` is the 3-bit code 0 (log 8). -/
structure FaultRecord where
  cause : Option FaultCause
  fpc : PcWord
  info : PcWord
  deriving DecidableEq, Repr

/-- The record at reset: all three fields 0 (R35, R170). -/
def FaultRecord.clear : FaultRecord := { cause := none, fpc := 0, info := 0 }

/-- One write requested on the host write port: `host_we` = 1 with this `host_waddr` and `host_wdata` (R40). -/
structure HostWrite where
  addr : Byte
  data : Byte
  deriving DecidableEq, Repr

/-- Memory (R45) as the cells that do not hold what an unlisted address reads as, in one canonical form (`Memory.wf`). -/
abbrev Memory := List Host.Cell

/-- The complete state of the machine (10_state.md, opening tuple), with the interface's input lines (R40) and the configuration (R7). -/
structure State where
  /-- general registers `x[0]`..`x[7]` (R20, R21) -/
  x : Vector Byte 8
  /-- program counter (R25) -/
  pc : PcWord
  /-- flag register (R30) -/
  fl : Byte
  /-- memory (R45) -/
  mem : Memory
  /-- run status (R34) -/
  status : Status
  /-- fault record (R35) -/
  fault : FaultRecord
  /-- values emitted by PRN, oldest first (R37) -/
  out : List Byte
  /-- the reset input line (R40) -/
  rst : Bool
  /-- the host write port's input lines: `none` is `host_we` = 0 (R40, R48) -/
  hostWrite : Option HostWrite
  /-- the open parameter (R7); no step writes it -/
  config : Config
  deriving DecidableEq, Repr

/-- Why the Lean machine stops with a fault: NEVER. Every failure this hardware has is a fault entry that R153 describes, so a step takes
it and goes to a next state with `status` FAULTED. No meaning raises a fault of this type, which has no constructor; that is safe, since
nothing is left out by it (log 3). -/
inductive Fault
  deriving DecidableEq, Repr

/-- Why the machine gives no meaning. -/
inductive Refusal where
  /-- Raised by `exec` for an instruction that has no meaning yet; safe. No arm of this model uses it. -/
  | notModelled (mnemonic : String)
  /-- Raised by `step` when the host requests a memory write while `rst` is 0: R48, "the spec gives it no meaning, and a model must treat
  it as refused". No instruction raises it. Safe: no run with such a write has a next state. -/
  | hostWriteOutsideReset (write : HostWrite)
  deriving DecidableEq, Repr

/-- The machine right after reset: the values of R170 and R172, `rst` released (log 6), no host write requested (log 5), the default
configuration (R7, log 1), and power-on memory, every cell 0 (R49). -/
def State.reset : State where
  x := Vector.replicate 8 0
  pc := 0
  fl := 0
  mem := []
  status := .running
  fault := FaultRecord.clear
  out := []
  rst := false
  hostWrite := none
  config := Config.default

end Sys2Proof.Machine
end

