-- ==== Sys2Proof/Machine/Ops.lean ====
section
/-! DEFINITION. The shared operations over memory, registers, the output channel and the fault record, each said once. -/

namespace Sys2Proof.Machine

/-- `zext_9` of R9, R104: a byte widened to 9 bits with a zero bit. -/
def zext9 (v : Byte) : PcWord := v.setWidth 9

/-! ### Memory -/

/-- What an address that memory does not list reads as: 0, the power-on value of every cell (R49, R172). -/
def unlistedByte : Byte := 0

/-- The byte held at an address (R47 without its range check). -/
def Memory.read : Memory → Nat → Byte
  | [], _ => unlistedByte
  | (b, w) :: rest, a => if a = b then w else Memory.read rest a

/-- Put a byte in front of the listed cells, unless it is what an unlisted address reads as. -/
def Memory.cons (a : Nat) (v : Byte) (m : Memory) : Memory :=
  if v = unlistedByte then m else (a, v) :: m

/-- `mem[addr] <- v`: exactly one cell changes (R48), and the canonical form is kept. -/
def Memory.write : Memory → Nat → Byte → Memory
  | [], a, v => Memory.cons a v []
  | (b, w) :: rest, a, v =>
    if a < b then Memory.cons a v ((b, w) :: rest)
    else if a = b then Memory.cons a v rest
    else (b, w) :: Memory.write rest a v

/-- The canonical form from the address `lo` on: addresses strictly rising, all below 256 (R45), no cell equal to what an unlisted
address reads as. -/
def Memory.wfFrom : Nat → Memory → Bool
  | _, [] => true
  | lo, (a, v) :: rest => decide (lo ≤ a) && decide (a < 256) && (v != unlistedByte) && Memory.wfFrom (a + 1) rest

/-- The canonical form of memory. -/
def Memory.wf (m : Memory) : Bool := Memory.wfFrom 0 m

/-- `MemRead(addr, 1)` of R47: the byte, or `none` where it raises `MEM_RANGE` (`addr >= 256`). -/
def memRead (m : Memory) (addr : Nat) : Option Byte :=
  if addr < 256 then some (Memory.read m addr) else none

/-! ### Registers, `pc`, `FL` and the output channel -/

/-- Read general register `i` (R10, R20). -/
def State.readReg (s : State) (i : Fin 8) : Byte := s.x[i.val]

/-- `x[i] <- v` (R10): every register keeps what is written to it, `R0` included (R20). -/
def State.writeReg (s : State) (i : Fin 8) (v : Byte) : State := { s with x := s.x.set i.val v }

/-- `FL <- v`, the whole register (R31). -/
def State.writeFl (s : State) (v : Byte) : State := { s with fl := v }

/-- `pc <- target` (R10). -/
def State.setPc (s : State) (target : PcWord) : State := { s with pc := target }

/-- `pc <- pc + n`, the sequential advance of R104. -/
def State.advance (s : State) (n : PcWord) : State := s.setPc (s.pc + n)

/-- `Output(v)` of R10: append the value to the output channel (R37, R158). -/
def State.output (s : State) (v : Byte) : State := { s with out := s.out ++ [v] }

/-! ### Fault entry, and the way back from it -/

/-- `raise C(info)` of R153: the record is written, `status` becomes FAULTED, and everything else stays as it was before the step. It is
always applied to the state the step began in, so that no other write of the instruction takes effect (R11). -/
def State.raise (s : State) (cause : FaultCause) (info : PcWord) : State :=
  { s with fault := { cause := some cause, fpc := s.pc, info := info }, status := .faulted }

/-- The core's part of the state at the values of R170; memory, the input lines and the configuration stay. Only this leaves FAULTED or
HALTED (R109, R110, R154): there is no return instruction. -/
def State.resetCore (s : State) : State :=
  { s with
    x := Vector.replicate 8 0
    pc := 0
    fl := 0
    status := .running
    fault := FaultRecord.clear
    out := [] }

/-! ### What the host does to the input lines between steps (R40, R173) -/

/-- Assert `rst`, in any state: the core takes the state of R170. -/
def State.assertRst (s : State) : State := { s.resetCore with rst := true }

/-- Release `rst`: the core runs from the state it holds (R170, R173). -/
def State.releaseRst (s : State) : State := { s with rst := false }

/-- Request one write on the host write port (R40). -/
def State.requestWrite (s : State) (addr data : Byte) : State := { s with hostWrite := some { addr := addr, data := data } }

/-- One transaction while `rst` is 1: the core takes no step and holds the state of R170, and a requested host write is done (R48, R170);
the request is then served and gone (log 5). -/
def State.holdInReset (s : State) : State :=
  match s.hostWrite with
  | none => s.resetCore
  | some w => { s.resetCore with mem := Memory.write s.mem w.addr.toNat w.data, hostWrite := none }

end Sys2Proof.Machine
end

