-- ==== Sys2Proof/Machine/Flags.lean ====
section
/-! DEFINITION. The flag register's values, the one flag computation (CMP) and the one flag test (JEQ, JNE). -/

namespace Sys2Proof.Machine

/-- `LESS` (R12, R30). -/
def flLess : Byte := 0b100

/-- `GREATER` (R12, R30). -/
def flGreater : Byte := 0b010

/-- `EQUAL` (R12, R30). -/
def flEqual : Byte := 0b001

/-- The unsigned three-way comparison of R88. -/
def compareFlags (a b : Byte) : Byte :=
  if a.toNat = b.toNat then flEqual else if a.toNat < b.toNat then flLess else flGreater

/-- The condition of JEQ, whose complement is that of JNE: all 8 bits of `FL` compared with `EQUAL` (R32, R134). -/
def foundEqual (fl : Byte) : Bool := fl == flEqual

end Sys2Proof.Machine
end

