-- ==== Sys2Proof/Machine/Operands.lean ====
section
/-! DEFINITION. The operand forms. The hardware has two: a register named by an operand byte, checked at each use (R23, R68), and an
immediate byte, used unchanged and never checked (R69), which needs no operation. -/

namespace Sys2Proof.Machine

/-- `CheckReg(b)` of R23, then the rest of the instruction with the register the byte names. A byte of 8 or more raises
`REG_RANGE(b)` in the state `s` the step began in; it is never reduced modulo 8. -/
def withReg (b : Byte) (s : State) (andThen : Fin 8 → State) : State :=
  if h : b.toNat < 8 then andThen ⟨b.toNat, h⟩ else s.raise .regRange (zext9 b)

/-- The two checks of the `RR` instructions, operand0 first (R91, R92, R152). -/
def withRegPair (a b : Byte) (s : State) (andThen : Fin 8 → Fin 8 → State) : State :=
  withReg a s fun i => withReg b s fun j => andThen i j

end Sys2Proof.Machine
end

