-- ==== Sys2Proof/Machine/Alu.lean ====
section
/-! DEFINITION. The ALU function unit (R85..R90) and the two instructions that use it, MUL (R91) and CMP (R92). -/

namespace Sys2Proof.Machine

/-- What the ALU returns (R85): a register result, a flag value, or the failure of the select that names no operation. -/
inductive AluResult where
  | value (v : Byte)
  | flags (v : Byte)
  | unsupported
  deriving DecidableEq, Repr

/-- The selects of R85. -/
def aluSelAdd : BitVec 2 := 0b00
def aluSelMul : BitVec 2 := 0b01
def aluSelCmp : BitVec 2 := 0b10

/-- `ALU(ADD, a, b) = (a + b) mod 256` (R86): the exact sum, narrowed. -/
def aluAdd (a b : Byte) : Byte := BitVec.ofNat 8 (a.toNat + b.toNat)

/-- `ALU(MUL, a, b) = (a * b) mod 256` (R87): the exact product, narrowed. -/
def aluMul (a b : Byte) : Byte := BitVec.ofNat 8 (a.toNat * b.toNat)

/-- The ALU as a function of its 2-bit operation select (R85, D17). -/
def alu (sel : BitVec 2) (a b : Byte) : AluResult :=
  if sel = aluSelAdd then .value (aluAdd a b)
  else if sel = aluSelMul then .value (aluMul a b)
  else if sel = aluSelCmp then .flags (compareFlags a b)
  else .unsupported

/-- The ALU over registers `i` and `j`, then the rest of the instruction: the first operand's register or `FL` is written and nothing
else (R85, R90), or `UNSUPPORTED_ALU` is raised with the select as info and nothing is written (R89). -/
def withAlu (sel : BitVec 2) (i j : Fin 8) (s : State) (andThen : State → State) : State :=
  match alu sel (s.readReg i) (s.readReg j) with
  | .value v => andThen (s.writeReg i v)
  | .flags v => andThen (s.writeFl v)
  | .unsupported => s.raise .unsupportedAlu (sel.setWidth 9)

/-- MUL (R91). -/
def execMul (regA regB : Byte) (s : State) : Host.Outcome State Fault Refusal :=
  .next (withRegPair regA regB s fun i j => withAlu aluSelMul i j s fun t => t.advance 3)

/-- CMP (R92). -/
def execCmp (regA regB : Byte) (s : State) : Host.Outcome State Fault Refusal :=
  .next (withRegPair regA regB s fun i j => withAlu aluSelCmp i j s fun t => t.advance 3)

end Sys2Proof.Machine
end

