-- ==== Sys2Proof/Machine/Control.lean ====
section
/-! DEFINITION. HLT (R107) and what an unknown opcode does (R108). -/

namespace Sys2Proof.Machine

/-- HLT (R107): `status` becomes HALTED and `pc` stays. -/
def execHlt (s : State) : Host.Outcome State Fault Refusal :=
  .next { s with status := .halted }

/-- `Unknown(op)` of R108, under both values of the policy. -/
def unknownOpcode (op : Byte) (s : State) : State :=
  match s.config.unknownOpcodePolicy with
  | .fault => s.raise .unknownOpcode (zext9 op)
  | .legacyNop => s.advance 1

end Sys2Proof.Machine
end

