-- ==== Sys2Proof/Machine/Jump.lean ====
section
/-! DEFINITION. JMP (R130), JEQ (R131) and JNE (R132). -/

namespace Sys2Proof.Machine

/-- A taken jump (R130, R133): the register is checked, and `pc` becomes its value exactly (R105). -/
def jumpTo (reg : Byte) (s : State) : State :=
  withReg reg s fun i => s.setPc (zext9 (s.readReg i))

/-- JMP (R130). -/
def execJmp (reg : Byte) (s : State) : Host.Outcome State Fault Refusal :=
  .next (jumpTo reg s)

/-- JEQ (R131): the register is checked only when the jump is taken (D10). -/
def execJeq (reg : Byte) (s : State) : Host.Outcome State Fault Refusal :=
  .next (if foundEqual s.fl then jumpTo reg s else s.advance 2)

/-- JNE (R132): the register is checked only when the jump is taken (D10). -/
def execJne (reg : Byte) (s : State) : Host.Outcome State Fault Refusal :=
  .next (if foundEqual s.fl then s.advance 2 else jumpTo reg s)

end Sys2Proof.Machine
end

