-- ==== Sys2Proof/Machine/LoadPrint.lean ====
section
/-! DEFINITION. LDI (R120) and PRN (R121). -/

namespace Sys2Proof.Machine

/-- LDI (R120): the immediate byte, unchanged, into the register. -/
def execLdi (reg imm : Byte) (s : State) : Host.Outcome State Fault Refusal :=
  .next (withReg reg s fun i => (s.writeReg i imm).advance 3)

/-- PRN (R121): the register's value onto the output channel. -/
def execPrn (reg : Byte) (s : State) : Host.Outcome State Fault Refusal :=
  .next (withReg reg s fun i => (s.output (s.readReg i)).advance 2)

end Sys2Proof.Machine
end

