-- ==== Sys2Proof/Machine/Dispatch.lean ====
section
/-! DEFINITION. The dispatch of a decoded instruction to its meaning (R101, R103): one arm per constructor. -/

namespace Sys2Proof.Machine

def exec (i : Instr) (s : State) : Host.Outcome State Fault Refusal :=
  match i with
  | .hlt => Sys2Proof.Machine.execHlt s
  | .ldi reg imm => Sys2Proof.Machine.execLdi reg imm s
  | .mul regA regB => Sys2Proof.Machine.execMul regA regB s
  | .prn reg => Sys2Proof.Machine.execPrn reg s
  | .cmp regA regB => Sys2Proof.Machine.execCmp regA regB s
  | .jmp reg => Sys2Proof.Machine.execJmp reg s
  | .jeq reg => Sys2Proof.Machine.execJeq reg s
  | .jne reg => Sys2Proof.Machine.execJne reg s

end Sys2Proof.Machine
end

