-- ==== Sys2Proof/Machine/Sequencer.lean ====
section
/-! DEFINITION. The fetch-decode-execute step of a running core (R101, R102, R53), and storing an instruction where it is fetched. -/

namespace Sys2Proof.Machine

/-- Fetch and decode at `pc`: the bytes are read through `MemRead` in the order of R53, `p` being the value of `pc` at the start (R106). -/
def fetch (s : State) : Decoded := decodeFrom (fun k => memRead s.mem (s.pc.toNat + k))

/-- `MEM_RANGE(info = addr)` (R47, R146). -/
def memRangeFault (addr : Nat) (s : State) : State := s.raise .memRange (BitVec.ofNat 9 addr)

/-- `Step()` of R101: the fetched instruction's handler, `Unknown(op)`, or the `MEM_RANGE` of the first byte that does not exist. -/
def runInstruction (s : State) : Host.Outcome State Fault Refusal :=
  match fetch s with
  | .instr i => exec i s
  | .unknownOpcode op => .next (unknownOpcode op s)
  | .missingByte offset => .next (memRangeFault (s.pc.toNat + offset) s)

/-- Store bytes at rising addresses; a byte whose address does not exist (256 or more) is dropped (log 6). -/
def storeBytes : List Byte → Nat → Memory → Memory
  | [], _, m => m
  | b :: rest, a, m => storeBytes rest (a + 1) (if a < 256 then Memory.write m a b else m)

end Sys2Proof.Machine
end

