-- ==== Sys2Proof/Machine/Step.lean ====
section
/-! DEFINITION. One step of the machine (R100): one transaction of the interface of R40 with `step` = 1. -/

namespace Sys2Proof.Machine

/-- While `rst` is 1 the core holds its reset state and the host may write memory (R48, R170); while `rst` is 0 a host write is refused
(R48, D15), a running core executes exactly one instruction (R100), and a core in HALTED or FAULTED changes nothing (R109, R110). -/
def step (s : State) : Host.Outcome State Fault Refusal :=
  if s.rst then .next s.holdInReset
  else
    match s.hostWrite with
    | some w => .refused (.hostWriteOutsideReset w)
    | none =>
      match s.status with
      | .running => runInstruction s
      | .halted => .next s
      | .faulted => .next s

/-- The state with an instruction's bytes stored where `step` fetches next, at `pc`; nothing else changes (log 6). -/
def State.withFetchWord (s : State) (nbits w : Nat) : State :=
  { s with mem := storeBytes (tableBytes nbits w) s.pc.toNat s.mem }

end Sys2Proof.Machine
end

