-- ==== Sys2Proof/Machine/ProgramFile.lean ====
section
/-! DEFINITION. The toolchain's two text forms (R77, R79), kept beside the core although reading a program's text is the host's (R5): the
program file's lines, and the assembler spelling of an instruction. A line is the list of its characters. -/

namespace Sys2Proof.Machine

/-- Why the host's loader stops (R150); no cause code of the core stands for it. -/
inductive LoadError where
  /-- line `index` (from 0) is not blank, not a full comment, and does not begin with 8 characters `0`/`1` -/
  | malformedLine (index : Nat)
  /-- the file holds more than 256 bytes -/
  | tooLong
  /-- the machine did not take a host write; `boot` never meets it, since it writes while `rst` is 1 -/
  | writeRefused
  deriving DecidableEq, Repr

/-- What a line of the program file is (R79). -/
inductive ProgramLine where
  | skipped
  | byte (b : Byte)
  | malformed
  deriving DecidableEq, Repr

/-- One digit of a base-2 numeral. -/
def binaryDigit (c : Char) : Option Nat :=
  if c = '0' then some 0 else if c = '1' then some 1 else none

/-- A base-2 numeral, most significant digit first (R8), of exactly `n` characters at the head of a line, read after the value `acc`. -/
def binaryPrefix : Nat → Nat → List Char → Option Nat
  | 0, acc, _ => some acc
  | _ + 1, _, [] => none
  | n + 1, acc, c :: rest =>
    match binaryDigit c with
    | none => none
    | some d => binaryPrefix n (2 * acc + d) rest

/-- A character that a blank line may hold (log 9). -/
def isBlankChar (c : Char) : Bool := c == ' ' || c == '\t' || c == '\r'

/-- R79: blank lines and full-comment lines are skipped; of any other line the first 8 characters are one byte; else R150 applies. -/
def parseLine (line : List Char) : ProgramLine :=
  if line.all isBlankChar then .skipped
  else if line.head? = some '#' then .skipped
  else
    match binaryPrefix 8 0 line with
    | none => .malformed
    | some v => .byte (BitVec.ofNat 8 v)

/-- The bytes of a program file in file order (R174), from its line `index` on. -/
def parseLines : Nat → List (List Char) → Except LoadError (List Byte)
  | _, [] => .ok []
  | index, line :: rest =>
    match parseLine line with
    | .malformed => .error (.malformedLine index)
    | .skipped => parseLines (index + 1) rest
    | .byte b =>
      match parseLines (index + 1) rest with
      | .error e => .error e
      | .ok bytes => .ok (b :: bytes)

/-- A program file's bytes, at most 256 of them (R150, R174). -/
def parseProgramFile (lines : List (List Char)) : Except LoadError (List Byte) :=
  match parseLines 0 lines with
  | .error e => .error e
  | .ok bytes => if 256 < bytes.length then .error .tooLong else .ok bytes

/-- The 8 characters that stand for a byte in a program file (R79), bit 7 first (R8). -/
def byteLine (b : Byte) : List Char :=
  [7, 6, 5, 4, 3, 2, 1, 0].map (fun k => if b.getLsbD k then '1' else '0')

/-- A register's assembler name `R0`..`R7` (R12, R77). -/
def asmReg (b : Byte) : String := "R" ++ Nat.repr b.toNat

/-- The assembler form of an instruction (R77); none where a register operand names no register, for which no spelling exists. -/
def asmText (i : Instr) : Option String :=
  if i.wellFormed then
    some <| i.opcode.mnemonic ++
      match i with
      | .hlt => ""
      | .ldi reg imm => " " ++ asmReg reg ++ "," ++ Nat.repr imm.toNat
      | .mul regA regB => " " ++ asmReg regA ++ "," ++ asmReg regB
      | .prn reg => " " ++ asmReg reg
      | .cmp regA regB => " " ++ asmReg regA ++ "," ++ asmReg regB
      | .jmp reg => " " ++ asmReg reg
      | .jeq reg => " " ++ asmReg reg
      | .jne reg => " " ++ asmReg reg
  else none

end Sys2Proof.Machine
end

