-- ==== Sys2Proof/Machine/Boot.lean ====
section
/-! DEFINITION. Power-on and the boot order the host follows (R172, R173, R174), made of the machine's own steps: each program byte is one
transaction on the host write port while `rst` is 1. -/

namespace Sys2Proof.Machine

/-- The state at power-on with `rst` asserted: R170, and every memory cell 0 (R172). -/
def State.powerOn : State := State.reset.assertRst

/-- One byte through the host write port: the request, then the transaction (R48). -/
def hostStore (addr data : Byte) (s : State) : Host.Outcome State Fault Refusal := step (s.requestWrite addr data)

/-- The loader's effect (R174): byte `k` of the program goes to `mem[k]`, in file order. -/
def loadBytes : Nat → List Byte → State → Except LoadError State
  | _, [], s => .ok s
  | k, b :: rest, s =>
    if k < 256 then
      match hostStore (BitVec.ofNat 8 k) b s with
      | .next t => loadBytes (k + 1) rest t
      | .fault _ => .error .writeRefused
      | .refused _ => .error .writeRefused
    else .error .tooLong

/-- How a boot ends: the core released, or a `LoadError` with the core still held in reset (R150). -/
inductive BootResult where
  | released (s : State)
  | loadError (e : LoadError) (held : State)
  deriving DecidableEq, Repr

/-- The boot order of R173 for a program given as its bytes: assert `rst`, write the bytes, release `rst`. A program of more than 256
bytes is a `LoadError`, found before anything is written (log 9). -/
def boot (bytes : List Byte) (s : State) : BootResult :=
  let held := { s.assertRst with hostWrite := none }
  if 256 < bytes.length then .loadError .tooLong held
  else
    match loadBytes 0 bytes held with
    | .ok t => .released t.releaseRst
    | .error e => .loadError e held

/-- The boot order for a program file (R79, R150, R173). -/
def bootFile (lines : List (List Char)) (s : State) : BootResult :=
  match parseProgramFile lines with
  | .ok bytes => boot bytes s
  | .error e => .loadError e { s.assertRst with hostWrite := none }

end Sys2Proof.Machine
end

