-- ==== Sys2Proof/Machine/Ports.lean ====
section
/-! DEFINITION. The output ports of R40, as functions of the state: what the core shows of the state it is in, and what it presents in
the step that is taken from that state (log 7). -/

namespace Sys2Proof.Machine

/-- The code of `status` on its 2-bit port (R34). -/
def Status.code : Status → BitVec 2
  | .running => 0b00
  | .halted => 0b01
  | .faulted => 0b10

/-- The code of a cause on the 3-bit port (R145). -/
def FaultCause.code : FaultCause → BitVec 3
  | .memRange => 1
  | .regRange => 2
  | .unknownOpcode => 3
  | .unsupportedAlu => 4

/-- The port `status` (R34, R40). -/
def State.statusPort (s : State) : BitVec 2 := s.status.code

/-- The port `fault_cause` (R35, R40, R145): 0 is no fault. -/
def State.faultCausePort (s : State) : BitVec 3 :=
  match s.fault.cause with
  | none => 0
  | some c => c.code

/-- The port `fault_pc` (R35, R40). -/
def State.faultPcPort (s : State) : PcWord := s.fault.fpc

/-- The port `fault_info` (R35, R40). -/
def State.faultInfoPort (s : State) : PcWord := s.fault.info

/-- Whether a step taken from this state executes an instruction (R100). -/
def State.executes (s : State) : Bool := !s.rst && s.hostWrite.isNone && s.status == .running

/-- `out_valid` and `out_data` of the step taken from this state (R40, R158): the value a PRN emits when it executes without fault, and
`none` (`out_valid` = 0, where `out_data` has no meaning) in every other step. -/
def State.outPort (s : State) : Option Byte :=
  if s.executes then
    match fetch s with
    | .instr (.prn reg) => if h : reg.toNat < 8 then some (s.readReg ⟨reg.toNat, h⟩) else none
    | .instr _ => none
    | .unknownOpcode _ => none
    | .missingByte _ => none
  else none

/-- `out_valid` (R40). -/
def State.outValidPort (s : State) : Bool := s.outPort.isSome

/-- The addresses the core presents on `mem_raddr` in the step taken from this state, in order (R40, R53): the opcode's, then those of
the operand bytes. An address of 256 or more is no value of the 8-bit port. -/
def State.readAddresses (s : State) : List Nat :=
  if s.executes then
    match fetch s with
    | .instr i => List.range' s.pc.toNat i.length
    | .unknownOpcode _ => [s.pc.toNat]
    | .missingByte offset => List.range' s.pc.toNat offset
  else []

end Sys2Proof.Machine
end

