-- ==== Sys2Proof/Safety.lean ====
section
/-! DEFINITION. The terms claims are stated in: when the core runs, what a run's end is, the invariant of reachable states, and two of the
spec's whole-machine tables (R152, R104) written over the raw bytes of memory, with neither the decoder nor the meanings. -/

namespace Sys2Proof.Machine

/-- The core executes an instruction in the step taken from this state: `rst` is 0, no host write is requested, `status` is RUNNING (R100). -/
abbrev State.Running (s : State) : Prop := s.rst = false ∧ s.hostWrite = none ∧ s.status = .running

/-- The bytes stand in memory one after another from the address on, every one of them below 256. -/
abbrev State.HoldsAt (s : State) (addr : Nat) (bytes : List Byte) : Prop :=
  addr + bytes.length ≤ 256 ∧ ∀ k (h : k < bytes.length), Memory.read s.mem (addr + k) = bytes[k]

/-- The state a fault leaves (R153): the record, `status`, and everything else as before the step. -/
def State.FaultedWith (s : State) (cause : FaultCause) (info : Nat) : State :=
  { s with status := .faulted, fault := ⟨some cause, s.pc, BitVec.ofNat 9 info⟩ }

/-- The run has ended: HALTED or FAULTED (R112). -/
abbrev State.Ended (s : State) : Prop := s.status = .halted ∨ s.status = .faulted

/-- A run from `s` ends in `t` after `n` steps (R112): the `n` steps lead to `t`, which has ended, with `rst` 0 and no host write
requested. -/
def RunEndsIn (s : State) (n : Nat) (t : State) : Prop :=
  Sys2Proof.core.run n s = .next t ∧ t.Ended ∧ t.rst = false ∧ t.hostWrite = none

/-- A safe state: it is not FAULTED. -/
abbrev State.Safe (s : State) : Prop := s.status ≠ .faulted

/-- The four values `FL` ever holds (R30). -/
abbrev FlLegal (fl : Byte) : Prop := fl = 0 ∨ fl = flLess ∨ fl = flGreater ∨ fl = flEqual

/-- What the fault record says, by its cause (R145..R149): `MEM_RANGE` is always of address 256, met within two bytes of `pc`;
`REG_RANGE` holds an operand byte of 8..255; `UNKNOWN_OPCODE` is only raised under the policy `Fault`, of the byte at `pc`, which is no
opcode; `UNSUPPORTED_ALU` never happens. -/
def State.FaultInfoLegal (s : State) : Prop :=
  match s.fault.cause with
  | none => s.fault.info = 0
  | some .memRange => s.fault.info = 256 ∧ 254 ≤ s.pc.toNat
  | some .regRange => 8 ≤ s.fault.info.toNat ∧ s.fault.info.toNat < 256
  | some .unknownOpcode =>
      s.config.unknownOpcodePolicy = .fault ∧ s.fault.info = zext9 (Memory.read s.mem s.pc.toNat) ∧
        opcodeOfByte (Memory.read s.mem s.pc.toNat) = none
  | some .unsupportedAlu => False

/-- While `rst` is 1 the core holds the values of R170. -/
abbrev State.HeldInReset (s : State) : Prop :=
  s.x = Vector.replicate 8 0 ∧ s.pc = 0 ∧ s.fl = 0 ∧ s.status = .running ∧ s.fault = FaultRecord.clear ∧ s.out = []

/-- The invariant of reachable states. -/
structure State.Inv (s : State) : Prop where
  /-- memory is in its canonical form, all of it below address 256 (R45) -/
  mem_wf : Memory.wf s.mem = true
  /-- `pc` never exceeds 256 (R28) -/
  pc_le : s.pc.toNat ≤ 256
  /-- `FL` holds one of its four values (R30) -/
  fl_legal : FlLegal s.fl
  /-- `status` is FAULTED exactly when a cause is recorded (R35, R153) -/
  faulted_iff : s.status = .faulted ↔ s.fault.cause ≠ none
  /-- the recorded address is that of the faulting instruction, at which `pc` stays; with no fault recorded it is 0 (R35, R153) -/
  fpc_eq : s.fault.fpc = if s.fault.cause = none then 0 else s.pc
  /-- the recorded info fits its cause (R145) -/
  info_legal : s.FaultInfoLegal
  /-- under `rst` the core holds its reset state (R170) -/
  held : s.rst = true → s.HeldInReset

/-! ### R152 and R104 over the raw bytes -/

/-- The byte at offset `k` from `pc`. -/
def State.byteAt (s : State) (k : Nat) : Byte := Memory.read s.mem (s.pc.toNat + k)

/-- The three-byte opcodes (R70). -/
def threeByteOpcodes : List Byte := [0x82, 0xA2, 0xA7]

/-- The two-byte opcodes (R70). -/
def twoByteOpcodes : List Byte := [0x47, 0x54, 0x55, 0x56]

/-- The eight opcode bytes (R72). -/
def opcodeBytes : List Byte := 0x01 :: (twoByteOpcodes ++ threeByteOpcodes)

/-- Whether JEQ (0x55) or JNE (0x56) is taken with this `FL` (R134). -/
abbrev takenWith (op fl : Byte) : Prop := (op = 0x55 ∧ fl = 0b001) ∨ (op = 0x56 ∧ fl ≠ 0b001)

/-- Whether the instruction of this opcode byte uses operand0 as a register: LDI, MUL, CMP, PRN, JMP always, JEQ and JNE when taken (R147). -/
abbrev checksOperand0 (op fl : Byte) : Prop := op ∈ [(0x82 : Byte), 0xA2, 0xA7, 0x47, 0x54] ∨ takenWith op fl

/-- The fault conditions of R152 in its order, each with the cause and the info it reports. -/
def State.faultConditions (s : State) : List (Prop × FaultCause × Nat) :=
  let p := s.pc.toNat
  let op := s.byteAt 0
  [ (256 ≤ p, .memRange, p),
    (op ∉ opcodeBytes ∧ s.config.unknownOpcodePolicy = .fault, .unknownOpcode, op.toNat),
    (op ∈ twoByteOpcodes ++ threeByteOpcodes ∧ 256 ≤ p + 1, .memRange, p + 1),
    (op ∈ threeByteOpcodes ∧ 256 ≤ p + 2, .memRange, p + 2),
    (checksOperand0 op s.fl ∧ 8 ≤ (s.byteAt 1).toNat, .regRange, (s.byteAt 1).toNat),
    (op ∈ [(0xA2 : Byte), 0xA7] ∧ 8 ≤ (s.byteAt 2).toNat, .regRange, (s.byteAt 2).toNat) ]

/-- The `k`-th fault condition of R152 holds, and none before it does. -/
def State.FirstFault (s : State) (k : Nat) (cause : FaultCause) (info : Nat) : Prop :=
  ∃ c, s.faultConditions[k]? = some (c, cause, info) ∧ c ∧ ∀ j e, j < k → s.faultConditions[j]? = some e → ¬ e.1

/-- No fault condition of R152 holds. -/
def State.NoFaultCondition (s : State) : Prop := ∀ e, e ∈ s.faultConditions → ¬ e.1

/-- The value `t` of R104: the register that the byte after the opcode names. -/
def State.targetIs (s : State) (t : Byte) : Prop := ∃ h : (s.byteAt 1).toNat < 8, t = s.x[(s.byteAt 1).toNat]

/-- The table of R104, for a step that does not fault: `n` is the next `pc`, exact. -/
def State.NextPc (s : State) (n : Nat) : Prop :=
  let p := s.pc.toNat
  let op := s.byteAt 0
  (op = 0x01 → n = p) ∧
  (op ∈ threeByteOpcodes → n = p + 3) ∧
  (op = 0x47 → n = p + 2) ∧
  (op = 0x54 ∨ takenWith op s.fl → ∃ t, s.targetIs t ∧ n = t.toNat) ∧
  (op ∈ [(0x55 : Byte), 0x56] ∧ ¬ takenWith op s.fl → n = p + 2) ∧
  (op ∉ opcodeBytes → n = p + 1)

end Sys2Proof.Machine
end

