-- ==== Sys2Proof/Certificates/Slice0/Obligations.lean ====
section
/-! DEFINITION. The statements for the provers, in the order of spec/: encoding, fetch, one rule per instruction, the ALU, what every
step keeps, faults, the host interface, runs. A statement about one step of a running core is over the raw bytes at `pc`. -/

open Sys2Proof Sys2Proof.Machine

/-! ### Encoding (30_encoding.md) -/

/-- R70, R72: the opcode bytes, written out, decode to their instructions with operand0 first and operand1 second, whatever bytes the
operands are and whatever follows. -/
def Obligations.OpcodeWordsDecode : Prop :=
  ∀ (a b : Byte) (rest : List Byte),
    decode (0x01 :: rest) = .instr .hlt ∧
    decode (0x82 :: a :: b :: rest) = .instr (.ldi a b) ∧
    decode (0xA2 :: a :: b :: rest) = .instr (.mul a b) ∧
    decode (0x47 :: a :: rest) = .instr (.prn a) ∧
    decode (0xA7 :: a :: b :: rest) = .instr (.cmp a b) ∧
    decode (0x54 :: a :: rest) = .instr (.jmp a) ∧
    decode (0x55 :: a :: rest) = .instr (.jeq a) ∧
    decode (0x56 :: a :: rest) = .instr (.jne a)

/-- R67: an instruction is selected by exact equality of all 8 bits of the opcode byte, and by nothing else. -/
def Obligations.OpcodeSelectedByExactEquality : Prop :=
  ∀ (op a b : Byte) (o : Opcode), (∃ i, decode [op, a, b] = .instr i ∧ i.opcode = o) ↔
    op = match o with
      | .hlt => 0b00000001
      | .ldi => 0b10000010
      | .mul => 0b10100010
      | .prn => 0b01000111
      | .cmp => 0b10100111
      | .jmp => 0b01010100
      | .jeq => 0b01010101
      | .jne => 0b01010110

/-- R74, R76: decoding is total; a byte outside the table is an unknown opcode whatever follows it; there are 248 of them, among them
0x00 and 0xA0. -/
def Obligations.UnlistedBytesAreUnknownOpcodes : Prop :=
  (∀ (op : Byte) (rest : List Byte), decode (op :: rest) = .unknownOpcode op ↔ op ∉ opcodeBytes) ∧
  ((List.range 256).filter (fun n => decode [BitVec.ofNat 8 n] == .unknownOpcode (BitVec.ofNat 8 n))).length = 248 ∧
  (0x00 : Byte) ∉ opcodeBytes ∧ (0xA0 : Byte) ∉ opcodeBytes

/-- Decoding and encoding agree in both directions, for every instruction with every operand byte: decoding gives an encoded instruction
back whatever follows it, an instruction is only decoded from its own encoding, and that encoding has the instruction's length. -/
def Obligations.DecodeInvertsEncode : Prop :=
  (∀ (i : Instr) (rest : List Byte), decode (encode i ++ rest) = .instr i) ∧
  (∀ (bytes : List Byte) (i : Instr), decode bytes = .instr i → ∃ rest, bytes = encode i ++ rest) ∧
  (∀ i : Instr, (encode i).length = i.length)

/-- Instructions packed byte after byte (R29, R65) are read back one by one, and in one way only. -/
def Obligations.PackedInstructionsDecodeUniquely : Prop :=
  (∀ is : List Instr, decodeAll is.length (encodeAll is) = some is) ∧
  (∀ (fuel : Nat) (bytes : List Byte) (is : List Instr), decodeAll fuel bytes = some is → encodeAll is = bytes)

/-! ### Fetch and dispatch (20_memory.md, 41_dispatcher.md) -/

/-- R101, R106: where the bytes at `pc` are an instruction's encoding, a step of the running core is that instruction's execution. -/
def Obligations.StepRunsDecodedInstruction : Prop :=
  ∀ (s : State) (i : Instr), s.Running → s.HoldsAt s.pc.toNat (encode i) → step s = exec i s

/-- R102: an opcode fetch at 256 or above raises `MEM_RANGE(pc)` with `fault.fpc = pc`, and nothing else happens. -/
def Obligations.OpcodeFetchPastMemoryFaults : Prop :=
  ∀ s : State, s.Running → 256 ≤ s.pc.toNat →
    step s = .next { s with status := .faulted, fault := ⟨some .memRange, s.pc, s.pc⟩ }

/-- R146: the three reads that raise `MEM_RANGE` and where they do, each with info 256 and `fpc` the instruction's address; from any `pc`
of 0..256 there is no other. -/
def Obligations.MemRangeCases : Prop :=
  ∀ s : State, s.Running → s.pc.toNat ≤ 256 →
    (s.pc.toNat = 256 ∨ (s.pc.toNat = 255 ∧ s.byteAt 0 ∈ twoByteOpcodes ++ threeByteOpcodes) ∨
        (s.pc.toNat = 254 ∧ s.byteAt 0 ∈ threeByteOpcodes) →
      step s = .next { s with status := .faulted, fault := ⟨some .memRange, s.pc, 256⟩ }) ∧
    (∀ t, step s = .next t → t.status = .faulted → t.fault.cause = some .memRange →
      s.pc.toNat = 256 ∨ (s.pc.toNat = 255 ∧ s.byteAt 0 ∈ twoByteOpcodes ++ threeByteOpcodes) ∨
        (s.pc.toNat = 254 ∧ s.byteAt 0 ∈ threeByteOpcodes))

/-- R108: an unknown opcode, under each policy; no operand byte is read. -/
def Obligations.UnknownOpcodeByPolicy : Prop :=
  ∀ s : State, s.Running → s.pc.toNat < 256 → s.byteAt 0 ∉ opcodeBytes →
    s.readAddresses = [s.pc.toNat] ∧
    (s.config.unknownOpcodePolicy = .fault →
      step s = .next { s with status := .faulted, fault := ⟨some .unknownOpcode, s.pc, BitVec.ofNat 9 (s.byteAt 0).toNat⟩ }) ∧
    (s.config.unknownOpcodePolicy = .legacyNop → step s = .next { s with pc := s.pc + 1 })

/-- The addresses a step presents on the read port, in order: the opcode's, then that of every operand byte the opcode has, used or not;
an unknown opcode reads no operand byte (R53). R53 lists `MemRead(pc+1)` and `MemRead(pc+2)` without a cut: that an address of 256 or
above is not presented on the 8-bit port of R40 (the empty list from 256 on, the filters below 256) is the model's choice (log 7). -/
def Obligations.ReadsInAddressOrder : Prop :=
  ∀ s : State, s.Running →
    let p := s.pc.toNat
    (256 ≤ p → s.readAddresses = []) ∧
    (p < 256 → s.byteAt 0 ∉ twoByteOpcodes ++ threeByteOpcodes → s.readAddresses = [p]) ∧
    (p < 256 → s.byteAt 0 ∈ twoByteOpcodes → s.readAddresses = [p, p + 1].filter (· < 256)) ∧
    (p < 256 → s.byteAt 0 ∈ threeByteOpcodes → s.readAddresses = [p, p + 1, p + 2].filter (· < 256))

/-- R46: no instruction reads memory other than its own bytes. Two running states that agree but for memory, and agree on the bytes at
the addresses the step reads, take the same step and stay in agreement but for that memory. -/
def Obligations.StepReadsOnlyItsOwnBytes : Prop :=
  ∀ (s : State) (m : Memory), s.Running →
    (∀ a, a ∈ s.readAddresses → Memory.read m a = Memory.read s.mem a) →
    ∃ t, step s = .next t ∧ step { s with mem := m } = .next { t with mem := m }

/-! ### The instructions, each as its rule gives it (40_alu.md, 41_dispatcher.md, 42_ldi_prn.md, 43_jumps.md) -/

/-- R107: HLT sets `status` to HALTED and leaves `pc` and everything else. -/
def Obligations.HltHalts : Prop :=
  ∀ s : State, s.Running → s.pc.toNat < 256 → s.byteAt 0 = 0x01 → step s = .next { s with status := .halted }

/-- R120: LDI, with its faults in order. -/
def Obligations.LdiLoadsImmediate : Prop :=
  ∀ s : State, s.Running → s.pc.toNat < 256 → s.byteAt 0 = 0x82 →
    (s.pc.toNat + 1 ≥ 256 → step s = .next (s.FaultedWith .memRange (s.pc.toNat + 1))) ∧
    (s.pc.toNat + 1 < 256 → s.pc.toNat + 2 ≥ 256 → step s = .next (s.FaultedWith .memRange (s.pc.toNat + 2))) ∧
    (s.pc.toNat + 2 < 256 → (s.byteAt 1).toNat ≥ 8 → step s = .next (s.FaultedWith .regRange (s.byteAt 1).toNat)) ∧
    (s.pc.toNat + 2 < 256 → ∀ _ : (s.byteAt 1).toNat < 8,
      step s = .next { s with x := s.x.set (s.byteAt 1).toNat (s.byteAt 2), pc := BitVec.ofNat 9 (s.pc.toNat + 3) })

/-- R91: MUL, with its faults in order. -/
def Obligations.MulMultipliesModulo256 : Prop :=
  ∀ s : State, s.Running → s.pc.toNat < 256 → s.byteAt 0 = 0xA2 →
    (s.pc.toNat + 1 ≥ 256 → step s = .next (s.FaultedWith .memRange (s.pc.toNat + 1))) ∧
    (s.pc.toNat + 1 < 256 → s.pc.toNat + 2 ≥ 256 → step s = .next (s.FaultedWith .memRange (s.pc.toNat + 2))) ∧
    (s.pc.toNat + 2 < 256 → (s.byteAt 1).toNat ≥ 8 → step s = .next (s.FaultedWith .regRange (s.byteAt 1).toNat)) ∧
    (s.pc.toNat + 2 < 256 → (s.byteAt 1).toNat < 8 → (s.byteAt 2).toNat ≥ 8 →
      step s = .next (s.FaultedWith .regRange (s.byteAt 2).toNat)) ∧
    (s.pc.toNat + 2 < 256 → ∀ (_ : (s.byteAt 1).toNat < 8) (_ : (s.byteAt 2).toNat < 8),
      step s = .next { s with
        x := s.x.set (s.byteAt 1).toNat
          (BitVec.ofNat 8 (s.x[(s.byteAt 1).toNat].toNat * s.x[(s.byteAt 2).toNat].toNat % 256))
        pc := BitVec.ofNat 9 (s.pc.toNat + 3) })

/-- R92: CMP, with its faults in order. -/
def Obligations.CmpSetsFlags : Prop :=
  ∀ s : State, s.Running → s.pc.toNat < 256 → s.byteAt 0 = 0xA7 →
    (s.pc.toNat + 1 ≥ 256 → step s = .next (s.FaultedWith .memRange (s.pc.toNat + 1))) ∧
    (s.pc.toNat + 1 < 256 → s.pc.toNat + 2 ≥ 256 → step s = .next (s.FaultedWith .memRange (s.pc.toNat + 2))) ∧
    (s.pc.toNat + 2 < 256 → (s.byteAt 1).toNat ≥ 8 → step s = .next (s.FaultedWith .regRange (s.byteAt 1).toNat)) ∧
    (s.pc.toNat + 2 < 256 → (s.byteAt 1).toNat < 8 → (s.byteAt 2).toNat ≥ 8 →
      step s = .next (s.FaultedWith .regRange (s.byteAt 2).toNat)) ∧
    (s.pc.toNat + 2 < 256 → ∀ (_ : (s.byteAt 1).toNat < 8) (_ : (s.byteAt 2).toNat < 8), ∃ fl : Byte,
      step s = .next { s with fl := fl, pc := BitVec.ofNat 9 (s.pc.toNat + 3) } ∧
      (s.x[(s.byteAt 1).toNat].toNat < s.x[(s.byteAt 2).toNat].toNat → fl = 0b100) ∧
      (s.x[(s.byteAt 1).toNat].toNat > s.x[(s.byteAt 2).toNat].toNat → fl = 0b010) ∧
      (s.x[(s.byteAt 1).toNat] = s.x[(s.byteAt 2).toNat] → fl = 0b001))

/-- R121: PRN, with its faults in order. -/
def Obligations.PrnEmitsRegister : Prop :=
  ∀ s : State, s.Running → s.pc.toNat < 256 → s.byteAt 0 = 0x47 →
    (s.pc.toNat = 255 → step s = .next (s.FaultedWith .memRange (s.pc.toNat + 1)) ∧ s.outPort = none) ∧
    (s.pc.toNat + 1 < 256 → (s.byteAt 1).toNat ≥ 8 →
      step s = .next (s.FaultedWith .regRange (s.byteAt 1).toNat) ∧ s.outPort = none) ∧
    (s.pc.toNat + 1 < 256 → ∀ _ : (s.byteAt 1).toNat < 8,
      step s = .next { s with out := s.out ++ [s.x[(s.byteAt 1).toNat]], pc := BitVec.ofNat 9 (s.pc.toNat + 2) } ∧
      s.outPort = some s.x[(s.byteAt 1).toNat])

/-- R130: JMP, with its faults in order. -/
def Obligations.JmpGoesToRegister : Prop :=
  ∀ s : State, s.Running → s.pc.toNat < 256 → s.byteAt 0 = 0x54 →
    (s.pc.toNat = 255 → step s = .next (s.FaultedWith .memRange (s.pc.toNat + 1))) ∧
    (s.pc.toNat + 1 < 256 → (s.byteAt 1).toNat ≥ 8 → step s = .next (s.FaultedWith .regRange (s.byteAt 1).toNat)) ∧
    (s.pc.toNat + 1 < 256 → ∀ _ : (s.byteAt 1).toNat < 8,
      step s = .next { s with pc := BitVec.ofNat 9 s.x[(s.byteAt 1).toNat].toNat })

/-- R131: JEQ, with its faults in order; the register is checked only when the jump is taken. -/
def Obligations.JeqTakenOnEqual : Prop :=
  ∀ s : State, s.Running → s.pc.toNat < 256 → s.byteAt 0 = 0x55 →
    (s.pc.toNat = 255 → step s = .next (s.FaultedWith .memRange (s.pc.toNat + 1))) ∧
    (s.pc.toNat + 1 < 256 → s.fl = 0b001 → (s.byteAt 1).toNat ≥ 8 →
      step s = .next (s.FaultedWith .regRange (s.byteAt 1).toNat)) ∧
    (s.pc.toNat + 1 < 256 → s.fl = 0b001 → ∀ _ : (s.byteAt 1).toNat < 8,
      step s = .next { s with pc := BitVec.ofNat 9 s.x[(s.byteAt 1).toNat].toNat }) ∧
    (s.pc.toNat + 1 < 256 → s.fl ≠ 0b001 → step s = .next { s with pc := BitVec.ofNat 9 (s.pc.toNat + 2) })

/-- R132: JNE, with its faults in order; the register is checked only when the jump is taken. -/
def Obligations.JneTakenOnNotEqual : Prop :=
  ∀ s : State, s.Running → s.pc.toNat < 256 → s.byteAt 0 = 0x56 →
    (s.pc.toNat = 255 → step s = .next (s.FaultedWith .memRange (s.pc.toNat + 1))) ∧
    (s.pc.toNat + 1 < 256 → s.fl ≠ 0b001 → (s.byteAt 1).toNat ≥ 8 →
      step s = .next (s.FaultedWith .regRange (s.byteAt 1).toNat)) ∧
    (s.pc.toNat + 1 < 256 → s.fl ≠ 0b001 → ∀ _ : (s.byteAt 1).toNat < 8,
      step s = .next { s with pc := BitVec.ofNat 9 s.x[(s.byteAt 1).toNat].toNat }) ∧
    (s.pc.toNat + 1 < 256 → s.fl = 0b001 → step s = .next { s with pc := BitVec.ofNat 9 (s.pc.toNat + 2) })

/-! ### The meanings: where each completes, where a register operand faults, and what each leaves alone -/

/-- The meanings of LDI and MUL, over operand bytes already fetched, complete whenever their register operands name registers: one register
is written, `pc` advances by 3, and the rest of the state stays (R91, R120). That this holds of `exec` at every `pc` is the model's choice
(log 11): where the operand bytes do not exist R91 and R120 give `MEM_RANGE`, which `step` raises before it applies a meaning. -/
def Obligations.LdiAndMulComplete : Prop :=
  ∀ s : State,
    (∀ (reg imm : Byte) (_ : reg.toNat < 8),
      exec (.ldi reg imm) s = .next { s with x := s.x.set reg.toNat imm, pc := s.pc + 3 }) ∧
    (∀ (regA regB : Byte) (_ : regA.toNat < 8) (_ : regB.toNat < 8),
      exec (.mul regA regB) s = .next { s with
        x := s.x.set regA.toNat (BitVec.ofNat 8 (s.x[regA.toNat].toNat * s.x[regB.toNat].toNat % 256)), pc := s.pc + 3 })

/-- The meaning of CMP, over operand bytes already fetched, completes whenever its register operands name registers: `FL` is written whole,
`pc` advances by 3, and the rest of the state stays (R88, R92). That this holds of `exec` at every `pc` is the model's choice (log 11):
where the operand bytes do not exist R92 gives `MEM_RANGE`, which `step` raises before it applies a meaning. -/
def Obligations.CmpCompletes : Prop :=
  ∀ (s : State) (regA regB : Byte) (_ : regA.toNat < 8) (_ : regB.toNat < 8),
    exec (.cmp regA regB) s = .next { s with
      fl := if s.x[regA.toNat].toNat < s.x[regB.toNat].toNat then 0b100
        else if s.x[regA.toNat].toNat > s.x[regB.toNat].toNat then 0b010 else 0b001
      pc := s.pc + 3 }

/-- The meaning of PRN, over an operand byte already fetched, completes whenever it names a register: one value is emitted, `pc` advances
by 2, and the rest of the state stays; HLT completes always, and only `status` changes (R107, R121). That the part about PRN holds of
`exec` at every `pc` is the model's choice (log 11): at 255 R121 gives `MEM_RANGE`, which `step` raises before it applies a meaning. -/
def Obligations.PrnAndHltComplete : Prop :=
  ∀ s : State,
    (∀ (reg : Byte) (_ : reg.toNat < 8),
      exec (.prn reg) s = .next { s with out := s.out ++ [s.x[reg.toNat]], pc := s.pc + 2 }) ∧
    exec .hlt s = .next { s with status := .halted }

/-- The meanings of JMP, of a taken JEQ and of a taken JNE, over an operand byte already fetched, complete whenever it names a register, and
`pc` becomes its value; those of a JEQ or JNE that is not taken complete with any operand byte, and `pc` advances by 2; the rest of the
state stays (R130, R131, R132). That this holds of `exec` at every `pc` is the model's choice (log 11): at 255 those rules give
`MEM_RANGE`, on both paths, which `step` raises before it applies a meaning. -/
def Obligations.JumpsComplete : Prop :=
  ∀ (s : State) (reg : Byte),
    (∀ _ : reg.toNat < 8,
      exec (.jmp reg) s = .next { s with pc := BitVec.ofNat 9 s.x[reg.toNat].toNat } ∧
      (s.fl = 0b001 → exec (.jeq reg) s = .next { s with pc := BitVec.ofNat 9 s.x[reg.toNat].toNat }) ∧
      (s.fl ≠ 0b001 → exec (.jne reg) s = .next { s with pc := BitVec.ofNat 9 s.x[reg.toNat].toNat })) ∧
    (s.fl ≠ 0b001 → exec (.jeq reg) s = .next { s with pc := s.pc + 2 }) ∧
    (s.fl = 0b001 → exec (.jne reg) s = .next { s with pc := s.pc + 2 })

/-- In the meanings, over operand bytes already fetched, a register use through an operand byte of 8 or more raises `REG_RANGE` with the
byte as info, in LDI, MUL, CMP, PRN and JMP on every execution, in JEQ and JNE when the jump is taken (R147), which else advance `pc` by 2
(R131, R132); operand0 is checked before operand1 (R152). That this holds of `exec` at every `pc` is the model's choice (log 11): where an
operand byte does not exist R152 reports `MEM_RANGE` first, which `step` raises before it applies a meaning. -/
def Obligations.RegRangeRaised : Prop :=
  ∀ (s : State) (reg other : Byte), 8 ≤ reg.toNat →
    let faulted := s.FaultedWith .regRange reg.toNat
    exec (.ldi reg other) s = .next faulted ∧
    exec (.mul reg other) s = .next faulted ∧
    exec (.cmp reg other) s = .next faulted ∧
    (other.toNat < 8 → exec (.mul other reg) s = .next faulted ∧ exec (.cmp other reg) s = .next faulted) ∧
    exec (.prn reg) s = .next faulted ∧
    exec (.jmp reg) s = .next faulted ∧
    (s.fl = 0b001 → exec (.jeq reg) s = .next faulted ∧ exec (.jne reg) s = .next { s with pc := s.pc + 2 }) ∧
    (s.fl ≠ 0b001 → exec (.jne reg) s = .next faulted ∧ exec (.jeq reg) s = .next { s with pc := s.pc + 2 })

/-- The meaning of every instruction whose register operands name registers, over operand bytes already fetched, completes from every
running state, without a fault and with the fault record as it was: no meaning stops, and none reaches `UNSUPPORTED_ALU` (R89, R147, R149).
That this holds of `exec` at every `pc` is the model's choice (log 11): where an operand byte does not exist R146 gives `MEM_RANGE`, which
`step` raises before it applies a meaning. -/
def Obligations.WellFormedInstructionsComplete : Prop :=
  ∀ (i : Instr) (s : State), i.wellFormed = true → s.status = .running →
    ∃ t, exec i s = .next t ∧ t.Safe ∧ t.fault = s.fault

/-- The frame of every instruction. Memory, the input lines and the configuration never change; a register changes only if LDI or MUL
names it as destination; `FL` only by CMP; the output channel only by PRN; `status` only by HLT or a fault; the fault record only by a
fault, from a state that had none (R22, R26, R31, R46, R90, R153). -/
def Obligations.ExecFrame : Prop :=
  ∀ (i : Instr) (s t : State), exec i s = .next t →
    (∀ a, Memory.read t.mem a = Memory.read s.mem a) ∧ t.mem = s.mem ∧
    t.rst = s.rst ∧ t.hostWrite = s.hostWrite ∧ t.config = s.config ∧
    (∀ j : Fin 8, (∀ reg imm, i = .ldi reg imm → reg.toNat ≠ j.val) → (∀ regA regB, i = .mul regA regB → regA.toNat ≠ j.val) →
      t.x[j] = s.x[j]) ∧
    ((∀ regA regB, i ≠ .cmp regA regB) → t.fl = s.fl) ∧
    ((∀ reg, i ≠ .prn reg) → t.out = s.out) ∧
    (i ≠ .hlt → t.status = s.status ∨ t.status = .faulted) ∧
    (i = .hlt → t.pc = s.pc ∧ t.status = .halted) ∧
    (s.status ≠ .faulted → t.status ≠ .faulted → t.fault = s.fault)

/-- The meanings of JEQ and JNE, over an operand byte already fetched: JEQ is JMP and JNE advances `pc` by 2 when `FL` is `EQUAL`, and the
other way round when it is not (R131, R132), so that for every `FL` exactly one of the two is taken; for the values `FL` ever holds, the
test is that of bit 0 (R134). That this holds of `exec` at every `pc` is the model's choice (log 11): at 255 R131 and R132 give
`MEM_RANGE`, on both paths, which `step` raises before it applies a meaning. -/
def Obligations.JeqAndJneAreComplements : Prop :=
  ∀ (s : State) (reg : Byte),
    (s.fl = 0b001 → exec (.jeq reg) s = exec (.jmp reg) s ∧ exec (.jne reg) s = .next { s with pc := s.pc + 2 }) ∧
    (s.fl ≠ 0b001 → exec (.jne reg) s = exec (.jmp reg) s ∧ exec (.jeq reg) s = .next { s with pc := s.pc + 2 }) ∧
    (FlLegal s.fl → (s.fl = 0b001 ↔ s.fl.getLsbD 0 = true))

/-! ### The ALU (40_alu.md) -/

/-- R85, R87, R88: the ALU's four selects over all operands, and where its result goes: the first operand's register, or `FL`, or nowhere
with `UNSUPPORTED_ALU` raised. -/
def Obligations.AluSelects : Prop :=
  (∀ a b : Byte,
    alu 0b00 a b = .value (BitVec.ofNat 8 ((a.toNat + b.toNat) % 256)) ∧
    alu 0b01 a b = .value (BitVec.ofNat 8 (a.toNat * b.toNat % 256)) ∧
    (a = b → alu 0b10 a b = .flags 0b001) ∧
    (a.toNat < b.toNat → alu 0b10 a b = .flags 0b100) ∧
    (a.toNat > b.toNat → alu 0b10 a b = .flags 0b010) ∧
    alu 0b11 a b = .unsupported) ∧
  (∀ (sel : BitVec 2) (i j : Fin 8) (s : State) (v : Byte) (andThen : State → State),
    (alu sel s.x[i] s.x[j] = .value v → withAlu sel i j s andThen = andThen { s with x := s.x.set i.val v }) ∧
    (alu sel s.x[i] s.x[j] = .flags v → withAlu sel i j s andThen = andThen { s with fl := v }) ∧
    (alu sel s.x[i] s.x[j] = .unsupported → withAlu sel i j s andThen = s.FaultedWith .unsupportedAlu sel.toNat))

/-- R86: ADD at the level of the ALU and its registers: the first register becomes the sum modulo 256, doubled where the two are one, and
nothing else changes; the byte 0xA0 is no opcode for it. -/
def Obligations.AluAddOverRegisters : Prop :=
  (∀ (i j : Fin 8) (s : State),
    let t := withAlu 0b00 i j s id
    t.x[i].toNat = (s.x[i].toNat + s.x[j].toNat) % 256 ∧
    (i = j → t.x[i].toNat = 2 * s.x[i].toNat % 256) ∧
    (∀ k : Fin 8, k ≠ i → t.x[k] = s.x[k]) ∧
    t.fl = s.fl ∧ t.pc = s.pc ∧ t.mem = s.mem ∧ t.out = s.out ∧ t.status = s.status ∧ t.fault = s.fault) ∧
  decode [0xA0] = .unknownOpcode 0xA0

/-! ### What every step keeps -/

/-- Every step that answers keeps the invariant: canonical memory, `pc` of at most 256 (R28), a legal `FL` (R30), a fault record that
agrees with `status`, `pc`, memory and the policy, with `UNSUPPORTED_ALU` never in it (R89, R145, R146), and the reset values while `rst`
is 1 (R170). -/
def Obligations.StepKeepsInvariant : Prop :=
  ∀ s t : State, s.Inv → step s = .next t → t.Inv

/-- The state after reset meets the invariant. -/
def Obligations.ResetMeetsInvariant : Prop := State.reset.Inv

/-- R31: in a step with `rst` 0, `FL` changes only when the core runs a CMP (opcode byte 0xA7), and a CMP that does not fault leaves one of
`LESS`, `GREATER`, `EQUAL` there whatever `FL` was. -/
def Obligations.OnlyCmpWritesFl : Prop :=
  ∀ s t : State, s.rst = false → step s = .next t →
    (t.fl ≠ s.fl → s.Running ∧ s.byteAt 0 = 0xA7) ∧
    (s.Running → s.pc.toNat < 256 → s.byteAt 0 = 0xA7 → t.status ≠ .faulted → t.fl = 0b100 ∨ t.fl = 0b010 ∨ t.fl = 0b001)

/-- R22: in a step with `rst` 0, a general register changes only when the core runs an LDI or a MUL whose operand0 is that register's
number, so no step changes two registers. -/
def Obligations.OnlyLdiAndMulWriteRegisters : Prop :=
  ∀ s t : State, s.rst = false → step s = .next t →
    ∀ i : Fin 8, t.x[i] ≠ s.x[i] → s.Running ∧ (s.byteAt 0 = 0x82 ∨ s.byteAt 0 = 0xA2) ∧ (s.byteAt 1).toNat = i.val

/-- R46, R56, R59: with `rst` 0 no step changes memory, whatever the core runs; nor the input lines or the configuration, which the core
does not drive (R41). -/
def Obligations.CoreNeverWritesMemory : Prop :=
  ∀ s t : State, s.rst = false → step s = .next t →
    t.mem = s.mem ∧ t.rst = false ∧ t.hostWrite = none ∧ t.config = s.config

/-- R158: with `rst` 0 the output channel gains in each step exactly the value presented with `out_valid` = 1, and that is so exactly in
the steps that execute PRN without a fault, with the register's value. While `rst` is 1 nothing is presented. -/
def Obligations.OutputPortMatchesChannel : Prop :=
  (∀ s t : State, s.rst = false → step s = .next t → t.out = s.out ++ s.outPort.toList) ∧
  (∀ (s : State) (v : Byte), s.outPort = some v ↔
    s.Running ∧ s.pc.toNat + 1 < 256 ∧ s.byteAt 0 = 0x47 ∧ ∃ _ : (s.byteAt 1).toNat < 8, v = s.x[(s.byteAt 1).toNat])

/-- R104: the next `pc` of every step of the running core: the table's value, exact, of at most 256, when the step does not fault; the
same `pc` when it does. -/
def Obligations.PcSequencing : Prop :=
  ∀ s : State, s.Running → s.pc.toNat ≤ 256 →
    ∃ t, step s = .next t ∧ t.pc.toNat ≤ 256 ∧
      (t.status = .faulted → t.pc = s.pc) ∧ (t.status ≠ .faulted → s.NextPc t.pc.toNat)

/-- A step always has a next state, but for the one the spec refuses: a host write requested while `rst` is 0 (R48). -/
def Obligations.StepAnswersUnlessHostWriteRefused : Prop :=
  ∀ s : State, (∃ t, step s = .next t) ∨
    (s.rst = false ∧ ∃ w, s.hostWrite = some w ∧ step s = .refused (.hostWriteOutsideReset w))

/-! ### Faults and terminal states (60_exceptions.md, 41_dispatcher.md) -/

/-- R152: of several fault conditions the first in the rule's order is reported, with its cause and info; where none holds, the step does
not fault. -/
def Obligations.FaultPriority : Prop :=
  ∀ s : State, s.Running →
    (∀ k cause info, s.FirstFault k cause info → step s = .next (s.FaultedWith cause info)) ∧
    (s.NoFaultCondition → ∃ t, step s = .next t ∧ t.status ≠ .faulted)

/-- R153: a fault is precise: from a running state a step that faults changes the record and `status` only, records the address the step
began at and a cause, and presents nothing on the output port. -/
def Obligations.FaultsArePrecise : Prop :=
  ∀ s t : State, s.Running → step s = .next t → t.status = .faulted →
    ∃ cause info, t = { s with status := .faulted, fault := { cause := some cause, fpc := s.pc, info := info } } ∧ s.outPort = none

/-- R109, R110: HALTED and FAULTED are terminal: no number of steps changes anything; asserting `rst` leaves them, with the core back at the
reset values. -/
def Obligations.TerminalStatesStay : Prop :=
  ∀ s : State, s.rst = false → s.hostWrite = none → s.Ended →
    (∀ n, Sys2Proof.core.run n s = .next s) ∧ s.assertRst.status = .running ∧ s.assertRst.HeldInReset

/-- The codes on the ports: `status` (R34) and `fault_cause` (R145); 0b11 is never a status, 5..7 never a cause. -/
def Obligations.PortCodes : Prop :=
  ∀ s : State,
    (s.status = .running ↔ s.statusPort = 0b00) ∧ (s.status = .halted ↔ s.statusPort = 0b01) ∧
    (s.status = .faulted ↔ s.statusPort = 0b10) ∧
    (s.fault.cause = none ↔ s.faultCausePort = 0) ∧ (s.fault.cause = some .memRange ↔ s.faultCausePort = 1) ∧
    (s.fault.cause = some .regRange ↔ s.faultCausePort = 2) ∧ (s.fault.cause = some .unknownOpcode ↔ s.faultCausePort = 3) ∧
    (s.fault.cause = some .unsupportedAlu ↔ s.faultCausePort = 4)

/-! ### Memory, reset and boot (20_memory.md, 70_reset_and_hazards.md) -/

/-- A write to canonical memory (the model's own form, log 10) changes the one cell and keeps the form (R48). -/
def Obligations.MemoryWriteChangesOneCell : Prop :=
  ∀ (m : Memory) (a : Nat) (v : Byte), Memory.wf m = true → a < 256 →
    Memory.wf (Memory.write m a v) = true ∧
    ∀ b, Memory.read (Memory.write m a v) b = if b = a then v else Memory.read m b

/-- Canonical memories (the model's own form, log 10) that read alike at every address of R45 are the same data. -/
def Obligations.CanonicalMemoriesAreExtensional : Prop :=
  ∀ m n : Memory, Memory.wf m = true → Memory.wf n = true →
    (∀ a, a < 256 → Memory.read m a = Memory.read n a) → m = n

/-- R48: while `rst` is 1 a host write changes exactly the addressed cell, and no register, `pc` or `FL` of a core held in reset; while
`rst` is 0 it is refused. -/
def Obligations.HostWriteOnlyUnderReset : Prop :=
  ∀ (s : State) (addr data : Byte),
    (s.rst = true → Memory.wf s.mem = true → ∃ t, step (s.requestWrite addr data) = .next t ∧
      (∀ b, Memory.read t.mem b = if b = addr.toNat then data else Memory.read s.mem b) ∧
      t.HeldInReset ∧ t.rst = true ∧ t.config = s.config) ∧
    (s.rst = false → step (s.requestWrite addr data) = .refused (.hostWriteOutsideReset ⟨addr, data⟩))

/-- R170: asserting `rst` in any state gives the listed values and leaves memory; while `rst` is 1 the core takes no step: it holds that
state, presents nothing, and reads nothing; released, it runs from it. -/
def Obligations.ResetFromAnyState : Prop :=
  ∀ s : State,
    s.assertRst.HeldInReset ∧ s.assertRst.mem = s.mem ∧ s.assertRst.rst = true ∧
    (s.rst = true → ∃ t, step s = .next t ∧ t.HeldInReset ∧ t.rst = true ∧ (s.hostWrite = none → t.mem = s.mem) ∧
      s.outPort = none ∧ s.readAddresses = []) ∧
    (s.hostWrite = none → step s.assertRst = .next s.assertRst ∧ s.assertRst.releaseRst.Running ∧
      s.assertRst.releaseRst.HeldInReset)

/-- R24, R27, R33: at reset every general register, `pc` and `FL` are 0. Power-on has every memory cell 0 (R49, R172), and
`State.reset` is power-on with `rst` released. -/
def Obligations.ResetValues : Prop :=
  (∀ i : Fin 8, State.reset.x[i] = 0) ∧ State.reset.pc = 0 ∧ State.reset.fl = 0 ∧
  (∀ a, Memory.read State.powerOn.mem a = 0) ∧ State.powerOn.releaseRst = State.reset

/-- R173, R174: booting a program file of at most 256 bytes leaves byte `k` of the file in `mem[k]` and every other cell as it was, and
the core runs from the reset values; a longer file is a `LoadError`, with the core still held in reset (R150). That memory is then as it
was is the model's choice (log 9). -/
def Obligations.BootLoadsProgramFile : Prop :=
  ∀ (s : State) (lines : List (List Char)) (bytes : List Byte), Memory.wf s.mem = true → parseLines 0 lines = .ok bytes →
    (bytes.length ≤ 256 → ∃ t, bootFile lines s = .released t ∧ t.Running ∧ t.HeldInReset ∧
      ∀ a, Memory.read t.mem a = if h : a < bytes.length then bytes[a] else Memory.read s.mem a) ∧
    (256 < bytes.length → ∃ t, bootFile lines s = .loadError .tooLong t ∧ t.rst = true ∧ t.HeldInReset ∧ t.mem = s.mem)

/-- R79: a line that begins with the 8 characters of a byte, most significant bit first, is read as that byte whatever follows; blank and
full-comment lines are skipped. -/
def Obligations.ProgramLinesReadBack : Prop :=
  (∀ (b : Byte) (rest : List Char), parseLine (byteLine b ++ rest) = .byte b) ∧
  (∀ rest : List Char, parseLine ('#' :: rest) = .skipped) ∧ parseLine [] = .skipped

/-! ### Runs (41_dispatcher.md, 70_reset_and_hazards.md) -/

/-- R175: an instruction sees the writes of the one before it: LDI then PRN of the same register emits the immediate; LDI then JMP through
the same register goes to the immediate; CMP then JEQ tests that CMP's result, whatever `FL` was before. -/
def Obligations.NextInstructionSeesWrites : Prop :=
  ∀ (s : State) (regA regB reg v : Byte), s.Running → ∀ (_ : regA.toNat < 8) (_ : regB.toNat < 8) (_ : reg.toNat < 8),
    (s.HoldsAt s.pc.toNat (encode (.ldi reg v) ++ encode (.prn reg)) →
      ∃ t, Sys2Proof.core.run 2 s = .next t ∧ t.out = s.out ++ [v]) ∧
    (s.HoldsAt s.pc.toNat (encode (.ldi reg v) ++ encode (.jmp reg)) →
      ∃ t, Sys2Proof.core.run 2 s = .next t ∧ t.pc.toNat = v.toNat) ∧
    (s.HoldsAt s.pc.toNat (encode (.cmp regA regB) ++ encode (.jeq reg)) →
      ∃ t, Sys2Proof.core.run 2 s = .next t ∧
        t.pc.toNat = if s.x[regA.toNat] = s.x[regB.toNat] then s.x[reg.toNat].toNat else s.pc.toNat + 5)

/-- R108, under `LegacyNop`: over `n` bytes that are no opcodes the core walks one at a time, with no other effect. -/
def Obligations.LegacyNopWalksUnknownBytes : Prop :=
  ∀ (s : State) (n : Nat), s.Running → s.config.unknownOpcodePolicy = .legacyNop → s.pc.toNat + n ≤ 256 →
    (∀ k, k < n → s.byteAt k ∉ opcodeBytes) →
    Sys2Proof.core.run n s = .next { s with pc := BitVec.ofNat 9 (s.pc.toNat + n) }

/-- R112: a run has at most one end. -/
def Obligations.RunEndIsUnique : Prop :=
  ∀ (s t u : State) (m n : Nat), RunEndsIn s m t → RunEndsIn s n u → t = u
end

