-- ==== Sys2Proof/Laws/Decode.lean ====
section
/-! SUPPORT. The decoder: what each opcode byte selects, and what a decoding says of the bytes read. -/

namespace Sys2Proof

@[simp] theorem opcodeOfByte_byte (o : Opcode) : opcodeOfByte o.byte = some o := by cases o <;> rfl

/-- A byte selects an opcode only by being that opcode's byte (R67). -/
theorem opcodeOfByte_eq_some {b : Byte} {o : Opcode} : opcodeOfByte b = some o ↔ b = o.byte := by
  constructor
  · intro h
    have := List.find?_some h
    exact (beq_iff_eq.1 this).symm
  · rintro rfl
    exact opcodeOfByte_byte o

theorem opcodeOfByte_eq_none {b : Byte} : opcodeOfByte b = none ↔ ∀ o : Opcode, b ≠ o.byte := by
  rw [← Option.not_isSome_iff_eq_none, Option.isSome_iff_exists]
  simp [opcodeOfByte_eq_some]

/-- Two readers that agree on the three offsets decode alike. -/
theorem decodeFrom_congr {f g : Nat → Option Byte} (h0 : f 0 = g 0) (h1 : f 1 = g 1) (h2 : f 2 = g 2) :
    decodeFrom f = decodeFrom g := by
  simp only [decodeFrom, decodeR, decodeRR, h0, h1, h2]

/-- Decoding reads an encoded instruction back from any reader that holds its bytes. -/
theorem decodeFrom_of_encode {f : Nat → Option Byte} (i : Instr) (h : ∀ k (hk : k < (encode i).length), f k = some (encode i)[k]) :
    decodeFrom f = .instr i := by
  cases i with
  | hlt =>
    have h0 := h 0 (by decide)
    simp only [encode, Instr.opcode, List.getElem_cons_zero] at h0
    simp only [decodeFrom, h0, opcodeOfByte_byte]
  | ldi | mul | cmp =>
    have h0 := h 0 (by simp [encode])
    have h1 := h 1 (by simp [encode])
    have h2 := h 2 (by simp [encode])
    simp only [encode, Instr.opcode, List.getElem_cons_zero, List.getElem_cons_succ] at h0 h1 h2
    simp only [decodeFrom, decodeRR, h0, h1, h2, opcodeOfByte_byte]
  | prn | jmp | jeq | jne =>
    have h0 := h 0 (by simp [encode])
    have h1 := h 1 (by simp [encode])
    simp only [encode, Instr.opcode, List.getElem_cons_zero, List.getElem_cons_succ] at h0 h1
    simp only [decodeFrom, decodeR, h0, h1, opcodeOfByte_byte]

end Sys2Proof
end

