-- ==== Sys2Proof/Laws/State.lean ====
section
/-! SUPPORT. One lemma per field of State and per named update: what the field is afterwards. -/

namespace Sys2Proof.Machine

variable (s : State)

/-! ### writeReg -/

@[simp] theorem State.writeReg_x (i : Fin 8) (v : Byte) : (s.writeReg i v).x = s.x.set i.val v := rfl
@[simp] theorem State.writeReg_pc (i : Fin 8) (v : Byte) : (s.writeReg i v).pc = s.pc := rfl
@[simp] theorem State.writeReg_fl (i : Fin 8) (v : Byte) : (s.writeReg i v).fl = s.fl := rfl
@[simp] theorem State.writeReg_mem (i : Fin 8) (v : Byte) : (s.writeReg i v).mem = s.mem := rfl
@[simp] theorem State.writeReg_status (i : Fin 8) (v : Byte) : (s.writeReg i v).status = s.status := rfl
@[simp] theorem State.writeReg_fault (i : Fin 8) (v : Byte) : (s.writeReg i v).fault = s.fault := rfl
@[simp] theorem State.writeReg_out (i : Fin 8) (v : Byte) : (s.writeReg i v).out = s.out := rfl
@[simp] theorem State.writeReg_rst (i : Fin 8) (v : Byte) : (s.writeReg i v).rst = s.rst := rfl
@[simp] theorem State.writeReg_hostWrite (i : Fin 8) (v : Byte) : (s.writeReg i v).hostWrite = s.hostWrite := rfl
@[simp] theorem State.writeReg_config (i : Fin 8) (v : Byte) : (s.writeReg i v).config = s.config := rfl

/-! ### writeFl -/

@[simp] theorem State.writeFl_x (v : Byte) : (s.writeFl v).x = s.x := rfl
@[simp] theorem State.writeFl_pc (v : Byte) : (s.writeFl v).pc = s.pc := rfl
@[simp] theorem State.writeFl_fl (v : Byte) : (s.writeFl v).fl = v := rfl
@[simp] theorem State.writeFl_mem (v : Byte) : (s.writeFl v).mem = s.mem := rfl
@[simp] theorem State.writeFl_status (v : Byte) : (s.writeFl v).status = s.status := rfl
@[simp] theorem State.writeFl_fault (v : Byte) : (s.writeFl v).fault = s.fault := rfl
@[simp] theorem State.writeFl_out (v : Byte) : (s.writeFl v).out = s.out := rfl
@[simp] theorem State.writeFl_rst (v : Byte) : (s.writeFl v).rst = s.rst := rfl
@[simp] theorem State.writeFl_hostWrite (v : Byte) : (s.writeFl v).hostWrite = s.hostWrite := rfl
@[simp] theorem State.writeFl_config (v : Byte) : (s.writeFl v).config = s.config := rfl

/-! ### setPc -/

@[simp] theorem State.setPc_x (target : PcWord) : (s.setPc target).x = s.x := rfl
@[simp] theorem State.setPc_pc (target : PcWord) : (s.setPc target).pc = target := rfl
@[simp] theorem State.setPc_fl (target : PcWord) : (s.setPc target).fl = s.fl := rfl
@[simp] theorem State.setPc_mem (target : PcWord) : (s.setPc target).mem = s.mem := rfl
@[simp] theorem State.setPc_status (target : PcWord) : (s.setPc target).status = s.status := rfl
@[simp] theorem State.setPc_fault (target : PcWord) : (s.setPc target).fault = s.fault := rfl
@[simp] theorem State.setPc_out (target : PcWord) : (s.setPc target).out = s.out := rfl
@[simp] theorem State.setPc_rst (target : PcWord) : (s.setPc target).rst = s.rst := rfl
@[simp] theorem State.setPc_hostWrite (target : PcWord) : (s.setPc target).hostWrite = s.hostWrite := rfl
@[simp] theorem State.setPc_config (target : PcWord) : (s.setPc target).config = s.config := rfl

/-! ### advance -/

@[simp] theorem State.advance_x (n : PcWord) : (s.advance n).x = s.x := rfl
@[simp] theorem State.advance_pc (n : PcWord) : (s.advance n).pc = s.pc + n := rfl
@[simp] theorem State.advance_fl (n : PcWord) : (s.advance n).fl = s.fl := rfl
@[simp] theorem State.advance_mem (n : PcWord) : (s.advance n).mem = s.mem := rfl
@[simp] theorem State.advance_status (n : PcWord) : (s.advance n).status = s.status := rfl
@[simp] theorem State.advance_fault (n : PcWord) : (s.advance n).fault = s.fault := rfl
@[simp] theorem State.advance_out (n : PcWord) : (s.advance n).out = s.out := rfl
@[simp] theorem State.advance_rst (n : PcWord) : (s.advance n).rst = s.rst := rfl
@[simp] theorem State.advance_hostWrite (n : PcWord) : (s.advance n).hostWrite = s.hostWrite := rfl
@[simp] theorem State.advance_config (n : PcWord) : (s.advance n).config = s.config := rfl

/-! ### output -/

@[simp] theorem State.output_x (v : Byte) : (s.output v).x = s.x := rfl
@[simp] theorem State.output_pc (v : Byte) : (s.output v).pc = s.pc := rfl
@[simp] theorem State.output_fl (v : Byte) : (s.output v).fl = s.fl := rfl
@[simp] theorem State.output_mem (v : Byte) : (s.output v).mem = s.mem := rfl
@[simp] theorem State.output_status (v : Byte) : (s.output v).status = s.status := rfl
@[simp] theorem State.output_fault (v : Byte) : (s.output v).fault = s.fault := rfl
@[simp] theorem State.output_out (v : Byte) : (s.output v).out = s.out ++ [v] := rfl
@[simp] theorem State.output_rst (v : Byte) : (s.output v).rst = s.rst := rfl
@[simp] theorem State.output_hostWrite (v : Byte) : (s.output v).hostWrite = s.hostWrite := rfl
@[simp] theorem State.output_config (v : Byte) : (s.output v).config = s.config := rfl

/-! ### raise -/

@[simp] theorem State.raise_x (cause : FaultCause) (info : PcWord) : (s.raise cause info).x = s.x := rfl
@[simp] theorem State.raise_pc (cause : FaultCause) (info : PcWord) : (s.raise cause info).pc = s.pc := rfl
@[simp] theorem State.raise_fl (cause : FaultCause) (info : PcWord) : (s.raise cause info).fl = s.fl := rfl
@[simp] theorem State.raise_mem (cause : FaultCause) (info : PcWord) : (s.raise cause info).mem = s.mem := rfl
@[simp] theorem State.raise_status (cause : FaultCause) (info : PcWord) : (s.raise cause info).status = .faulted := rfl
@[simp] theorem State.raise_fault (cause : FaultCause) (info : PcWord) : (s.raise cause info).fault = { cause := some cause, fpc := s.pc, info := info } := rfl
@[simp] theorem State.raise_out (cause : FaultCause) (info : PcWord) : (s.raise cause info).out = s.out := rfl
@[simp] theorem State.raise_rst (cause : FaultCause) (info : PcWord) : (s.raise cause info).rst = s.rst := rfl
@[simp] theorem State.raise_hostWrite (cause : FaultCause) (info : PcWord) : (s.raise cause info).hostWrite = s.hostWrite := rfl
@[simp] theorem State.raise_config (cause : FaultCause) (info : PcWord) : (s.raise cause info).config = s.config := rfl

/-! ### resetCore -/

@[simp] theorem State.resetCore_x : (s.resetCore).x = Vector.replicate 8 0 := rfl
@[simp] theorem State.resetCore_pc : (s.resetCore).pc = 0 := rfl
@[simp] theorem State.resetCore_fl : (s.resetCore).fl = 0 := rfl
@[simp] theorem State.resetCore_mem : (s.resetCore).mem = s.mem := rfl
@[simp] theorem State.resetCore_status : (s.resetCore).status = .running := rfl
@[simp] theorem State.resetCore_fault : (s.resetCore).fault = FaultRecord.clear := rfl
@[simp] theorem State.resetCore_out : (s.resetCore).out = [] := rfl
@[simp] theorem State.resetCore_rst : (s.resetCore).rst = s.rst := rfl
@[simp] theorem State.resetCore_hostWrite : (s.resetCore).hostWrite = s.hostWrite := rfl
@[simp] theorem State.resetCore_config : (s.resetCore).config = s.config := rfl

/-! ### assertRst -/

@[simp] theorem State.assertRst_x : (s.assertRst).x = Vector.replicate 8 0 := rfl
@[simp] theorem State.assertRst_pc : (s.assertRst).pc = 0 := rfl
@[simp] theorem State.assertRst_fl : (s.assertRst).fl = 0 := rfl
@[simp] theorem State.assertRst_mem : (s.assertRst).mem = s.mem := rfl
@[simp] theorem State.assertRst_status : (s.assertRst).status = .running := rfl
@[simp] theorem State.assertRst_fault : (s.assertRst).fault = FaultRecord.clear := rfl
@[simp] theorem State.assertRst_out : (s.assertRst).out = [] := rfl
@[simp] theorem State.assertRst_rst : (s.assertRst).rst = true := rfl
@[simp] theorem State.assertRst_hostWrite : (s.assertRst).hostWrite = s.hostWrite := rfl
@[simp] theorem State.assertRst_config : (s.assertRst).config = s.config := rfl

/-! ### releaseRst -/

@[simp] theorem State.releaseRst_x : (s.releaseRst).x = s.x := rfl
@[simp] theorem State.releaseRst_pc : (s.releaseRst).pc = s.pc := rfl
@[simp] theorem State.releaseRst_fl : (s.releaseRst).fl = s.fl := rfl
@[simp] theorem State.releaseRst_mem : (s.releaseRst).mem = s.mem := rfl
@[simp] theorem State.releaseRst_status : (s.releaseRst).status = s.status := rfl
@[simp] theorem State.releaseRst_fault : (s.releaseRst).fault = s.fault := rfl
@[simp] theorem State.releaseRst_out : (s.releaseRst).out = s.out := rfl
@[simp] theorem State.releaseRst_rst : (s.releaseRst).rst = false := rfl
@[simp] theorem State.releaseRst_hostWrite : (s.releaseRst).hostWrite = s.hostWrite := rfl
@[simp] theorem State.releaseRst_config : (s.releaseRst).config = s.config := rfl

/-! ### requestWrite -/

@[simp] theorem State.requestWrite_x (addr data : Byte) : (s.requestWrite addr data).x = s.x := rfl
@[simp] theorem State.requestWrite_pc (addr data : Byte) : (s.requestWrite addr data).pc = s.pc := rfl
@[simp] theorem State.requestWrite_fl (addr data : Byte) : (s.requestWrite addr data).fl = s.fl := rfl
@[simp] theorem State.requestWrite_mem (addr data : Byte) : (s.requestWrite addr data).mem = s.mem := rfl
@[simp] theorem State.requestWrite_status (addr data : Byte) : (s.requestWrite addr data).status = s.status := rfl
@[simp] theorem State.requestWrite_fault (addr data : Byte) : (s.requestWrite addr data).fault = s.fault := rfl
@[simp] theorem State.requestWrite_out (addr data : Byte) : (s.requestWrite addr data).out = s.out := rfl
@[simp] theorem State.requestWrite_rst (addr data : Byte) : (s.requestWrite addr data).rst = s.rst := rfl
@[simp] theorem State.requestWrite_hostWrite (addr data : Byte) : (s.requestWrite addr data).hostWrite = some { addr := addr, data := data } := rfl
@[simp] theorem State.requestWrite_config (addr data : Byte) : (s.requestWrite addr data).config = s.config := rfl

/-! ### Reading a register back -/

@[simp] theorem State.readReg_writeReg (i j : Fin 8) (v : Byte) :
    (s.writeReg i v).readReg j = if i = j then v else s.readReg j := by
  simp only [State.readReg, State.writeReg, Vector.getElem_set, Fin.ext_iff]

end Sys2Proof.Machine
end

