-- ==== Sys2Proof/Laws/Operations.lean ====
section
/-! SUPPORT. One lemma per shared operation that says all it can do: the operand checks, the ALU over registers, a jump. -/

namespace Sys2Proof.Machine

variable {s : State}

/-- A byte that names a register: the check passes. -/
theorem withReg_named {b : Byte} (h : b.toNat < 8) (andThen : Fin 8 → State) :
    withReg b s andThen = andThen ⟨b.toNat, h⟩ := dif_pos h

/-- A byte that names no register: `REG_RANGE` (R23). -/
theorem withReg_unnamed {b : Byte} (h : 8 ≤ b.toNat) (andThen : Fin 8 → State) :
    withReg b s andThen = s.raise .regRange (zext9 b) := dif_neg (Nat.not_lt.2 h)

theorem withReg_cases (b : Byte) (s : State) (andThen : Fin 8 → State) :
    (∃ h : b.toNat < 8, withReg b s andThen = andThen ⟨b.toNat, h⟩) ∨
    (8 ≤ b.toNat ∧ withReg b s andThen = s.raise .regRange (zext9 b)) := by
  by_cases h : b.toNat < 8
  · exact .inl ⟨h, withReg_named h andThen⟩
  · exact .inr ⟨Nat.not_lt.1 h, withReg_unnamed (Nat.not_lt.1 h) andThen⟩

/-- Everything the pair of checks can do (R152): both pass, or the first byte that names no register is reported. -/
theorem withRegPair_cases (a b : Byte) (s : State) (andThen : Fin 8 → Fin 8 → State) :
    (∃ (ha : a.toNat < 8) (hb : b.toNat < 8),
      withRegPair a b s andThen = andThen ⟨a.toNat, ha⟩ ⟨b.toNat, hb⟩) ∨
    (8 ≤ a.toNat ∧ withRegPair a b s andThen = s.raise .regRange (zext9 a)) ∨
    (a.toNat < 8 ∧ 8 ≤ b.toNat ∧ withRegPair a b s andThen = s.raise .regRange (zext9 b)) := by
  unfold withRegPair
  obtain ⟨ha, e⟩ | ⟨ha, e⟩ := withReg_cases a s (fun i => withReg b s fun j => andThen i j)
  · rw [e]
    obtain ⟨hb, e'⟩ | ⟨hb, e'⟩ := withReg_cases b s (fun j => andThen ⟨a.toNat, ha⟩ j)
    · exact .inl ⟨ha, hb, e'⟩
    · exact .inr (.inr ⟨ha, hb, e'⟩)
  · exact .inr (.inl ⟨ha, e⟩)

@[simp] theorem withAlu_add (i j : Fin 8) (andThen : State → State) :
    withAlu aluSelAdd i j s andThen = andThen (s.writeReg i (aluAdd (s.readReg i) (s.readReg j))) := rfl

@[simp] theorem withAlu_mul (i j : Fin 8) (andThen : State → State) :
    withAlu aluSelMul i j s andThen = andThen (s.writeReg i (aluMul (s.readReg i) (s.readReg j))) := rfl

@[simp] theorem withAlu_cmp (i j : Fin 8) (andThen : State → State) :
    withAlu aluSelCmp i j s andThen = andThen (s.writeFl (compareFlags (s.readReg i) (s.readReg j))) := rfl

/-- The select that names no operation writes nothing and raises `UNSUPPORTED_ALU` with info 3 (R89). -/
@[simp] theorem withAlu_unsupported (i j : Fin 8) (andThen : State → State) :
    withAlu 0b11 i j s andThen = s.raise .unsupportedAlu 3 := rfl

/-- The comparison has three outcomes (R88). -/
theorem compareFlags_cases (a b : Byte) :
    (a.toNat = b.toNat ∧ compareFlags a b = flEqual) ∨ (a.toNat < b.toNat ∧ compareFlags a b = flLess) ∨
    (b.toNat < a.toNat ∧ compareFlags a b = flGreater) := by
  unfold compareFlags
  rcases Nat.lt_trichotomy a.toNat b.toNat with h | h | h
  · exact .inr (.inl ⟨h, by rw [if_neg (by omega), if_pos h]⟩)
  · exact .inl ⟨h, if_pos h⟩
  · exact .inr (.inr ⟨h, by rw [if_neg (by omega), if_neg (by omega)]⟩)

@[simp] theorem foundEqual_iff (fl : Byte) : foundEqual fl = true ↔ fl = flEqual := beq_iff_eq

theorem zext9_eq_ofNat (v : Byte) : zext9 v = BitVec.ofNat 9 v.toNat := by
  apply BitVec.eq_of_toNat_eq
  simp [zext9]

@[simp] theorem zext9_toNat (v : Byte) : (zext9 v).toNat = v.toNat := by
  simp only [zext9, BitVec.toNat_setWidth]
  omega

end Sys2Proof.Machine
end

