-- ==== Sys2Proof/Laws/Exec.lean ====
section
/-! SUPPORT. Each meaning, once: where it completes and with which state, and where it faults. -/

namespace Sys2Proof.Machine

variable {s : State}

theorem namesRegister_of_ge {b : Byte} (h : 8 ≤ b.toNat) : namesRegister b = false := decide_eq_false (by omega)

theorem execHlt_eq : exec .hlt s = .next { s with status := .halted } := rfl

theorem execLdi_cases (reg imm : Byte) :
    (∃ h : reg.toNat < 8, exec (.ldi reg imm) s = .next ((s.writeReg ⟨reg.toNat, h⟩ imm).advance 3)) ∨
    (8 ≤ reg.toNat ∧ exec (.ldi reg imm) s = .next (s.raise .regRange (zext9 reg))) := by
  obtain ⟨h, e⟩ | ⟨h, e⟩ := withReg_cases reg s (fun i => (s.writeReg i imm).advance 3)
  · exact .inl ⟨h, congrArg _ e⟩
  · exact .inr ⟨h, congrArg _ e⟩

theorem execPrn_cases (reg : Byte) :
    (∃ h : reg.toNat < 8, exec (.prn reg) s = .next ((s.output (s.readReg ⟨reg.toNat, h⟩)).advance 2)) ∨
    (8 ≤ reg.toNat ∧ exec (.prn reg) s = .next (s.raise .regRange (zext9 reg))) := by
  obtain ⟨h, e⟩ | ⟨h, e⟩ := withReg_cases reg s (fun i => (s.output (s.readReg i)).advance 2)
  · exact .inl ⟨h, congrArg _ e⟩
  · exact .inr ⟨h, congrArg _ e⟩

theorem execMul_cases (regA regB : Byte) :
    (∃ (ha : regA.toNat < 8) (hb : regB.toNat < 8), exec (.mul regA regB) s =
      .next ((s.writeReg ⟨regA.toNat, ha⟩ (aluMul (s.readReg ⟨regA.toNat, ha⟩) (s.readReg ⟨regB.toNat, hb⟩))).advance 3)) ∨
    (8 ≤ regA.toNat ∧ exec (.mul regA regB) s = .next (s.raise .regRange (zext9 regA))) ∨
    (regA.toNat < 8 ∧ 8 ≤ regB.toNat ∧ exec (.mul regA regB) s = .next (s.raise .regRange (zext9 regB))) := by
  obtain ⟨ha, hb, e⟩ | ⟨h, e⟩ | ⟨ha, hb, e⟩ :=
    withRegPair_cases regA regB s (fun i j => withAlu aluSelMul i j s fun t => t.advance 3)
  · exact .inl ⟨ha, hb, congrArg _ e⟩
  · exact .inr (.inl ⟨h, congrArg _ e⟩)
  · exact .inr (.inr ⟨ha, hb, congrArg _ e⟩)

theorem execCmp_cases (regA regB : Byte) :
    (∃ (ha : regA.toNat < 8) (hb : regB.toNat < 8), exec (.cmp regA regB) s =
      .next ((s.writeFl (compareFlags (s.readReg ⟨regA.toNat, ha⟩) (s.readReg ⟨regB.toNat, hb⟩))).advance 3)) ∨
    (8 ≤ regA.toNat ∧ exec (.cmp regA regB) s = .next (s.raise .regRange (zext9 regA))) ∨
    (regA.toNat < 8 ∧ 8 ≤ regB.toNat ∧ exec (.cmp regA regB) s = .next (s.raise .regRange (zext9 regB))) := by
  obtain ⟨ha, hb, e⟩ | ⟨h, e⟩ | ⟨ha, hb, e⟩ :=
    withRegPair_cases regA regB s (fun i j => withAlu aluSelCmp i j s fun t => t.advance 3)
  · exact .inl ⟨ha, hb, congrArg _ e⟩
  · exact .inr (.inl ⟨h, congrArg _ e⟩)
  · exact .inr (.inr ⟨ha, hb, congrArg _ e⟩)

theorem execJmp_cases (reg : Byte) :
    (∃ h : reg.toNat < 8, exec (.jmp reg) s = .next (s.setPc (zext9 (s.readReg ⟨reg.toNat, h⟩)))) ∨
    (8 ≤ reg.toNat ∧ exec (.jmp reg) s = .next (s.raise .regRange (zext9 reg))) := by
  obtain ⟨h, e⟩ | ⟨h, e⟩ := withReg_cases reg s (fun i => s.setPc (zext9 (s.readReg i)))
  · exact .inl ⟨h, congrArg _ e⟩
  · exact .inr ⟨h, congrArg _ e⟩

/-- A taken JEQ is a JMP. -/
theorem execJeq_taken (reg : Byte) (h : s.fl = flEqual) : exec (.jeq reg) s = exec (.jmp reg) s := by
  simp [exec, execJeq, execJmp, h]

theorem execJeq_not_taken (reg : Byte) (h : s.fl ≠ flEqual) : exec (.jeq reg) s = .next (s.advance 2) := by
  simp [exec, execJeq, h]

/-- A taken JNE is a JMP. -/
theorem execJne_taken (reg : Byte) (h : s.fl ≠ flEqual) : exec (.jne reg) s = exec (.jmp reg) s := by
  simp [exec, execJne, execJmp, h]

theorem execJne_not_taken (reg : Byte) (h : s.fl = flEqual) : exec (.jne reg) s = .next (s.advance 2) := by
  simp [exec, execJne, h]

/-- Everything an instruction can do: it halts, it raises `REG_RANGE` for a byte of 8 or more that it holds (so that it is
not well formed), or it makes one of the four
changes of a completed instruction. -/
theorem exec_cases (i : Instr) (s : State) :
    (i = .hlt ∧ exec i s = .next { s with status := .halted }) ∨
    (∃ b : Byte, 8 ≤ b.toNat ∧ i.wellFormed = false ∧ exec i s = .next (s.raise .regRange (zext9 b))) ∨
    (∃ (j : Fin 8) (v : Byte), ((∃ reg imm, i = .ldi reg imm ∧ reg.toNat = j.val) ∨ ∃ a b, i = .mul a b ∧ a.toNat = j.val) ∧
      exec i s = .next ((s.writeReg j v).advance 3)) ∨
    (∃ a b u v, i = .cmp a b ∧ exec i s = .next ((s.writeFl (compareFlags u v)).advance 3)) ∨
    (∃ reg, ∃ h : reg.toNat < 8, i = .prn reg ∧ exec i s = .next ((s.output (s.readReg ⟨reg.toNat, h⟩)).advance 2)) ∨
    (∃ j, ((∃ reg, i = .jmp reg) ∨ (∃ reg, i = .jeq reg) ∨ ∃ reg, i = .jne reg) ∧ exec i s = .next (s.setPc (zext9 (s.readReg j)))) ∨
    (((∃ reg, i = .jeq reg) ∨ ∃ reg, i = .jne reg) ∧ exec i s = .next (s.advance 2)) := by
  cases i with
  | hlt => exact .inl ⟨rfl, rfl⟩
  | ldi reg imm =>
    obtain ⟨h, e⟩ | ⟨h, e⟩ := execLdi_cases (s := s) reg imm
    · exact .inr (.inr (.inl ⟨_, _, .inl ⟨_, _, rfl, rfl⟩, e⟩))
    · exact .inr (.inl ⟨_, h, by simp [Instr.wellFormed, namesRegister_of_ge h], e⟩)
  | mul a b =>
    obtain ⟨ha, hb, e⟩ | ⟨h, e⟩ | ⟨-, h, e⟩ := execMul_cases (s := s) a b
    · exact .inr (.inr (.inl ⟨_, _, .inr ⟨_, _, rfl, rfl⟩, e⟩))
    · exact .inr (.inl ⟨_, h, by simp [Instr.wellFormed, namesRegister_of_ge h], e⟩)
    · exact .inr (.inl ⟨_, h, by simp [Instr.wellFormed, namesRegister_of_ge h], e⟩)
  | prn reg =>
    obtain ⟨h, e⟩ | ⟨h, e⟩ := execPrn_cases (s := s) reg
    · exact .inr (.inr (.inr (.inr (.inl ⟨_, h, rfl, e⟩))))
    · exact .inr (.inl ⟨_, h, by simp [Instr.wellFormed, namesRegister_of_ge h], e⟩)
  | cmp a b =>
    obtain ⟨ha, hb, e⟩ | ⟨h, e⟩ | ⟨-, h, e⟩ := execCmp_cases (s := s) a b
    · exact .inr (.inr (.inr (.inl ⟨_, _, _, _, rfl, e⟩)))
    · exact .inr (.inl ⟨_, h, by simp [Instr.wellFormed, namesRegister_of_ge h], e⟩)
    · exact .inr (.inl ⟨_, h, by simp [Instr.wellFormed, namesRegister_of_ge h], e⟩)
  | jmp reg =>
    obtain ⟨h, e⟩ | ⟨h, e⟩ := execJmp_cases (s := s) reg
    · exact .inr (.inr (.inr (.inr (.inr (.inl ⟨_, .inl ⟨_, rfl⟩, e⟩)))))
    · exact .inr (.inl ⟨_, h, by simp [Instr.wellFormed, namesRegister_of_ge h], e⟩)
  | jeq reg =>
    by_cases hf : s.fl = flEqual
    · rw [execJeq_taken reg hf]
      obtain ⟨h, e⟩ | ⟨h, e⟩ := execJmp_cases (s := s) reg
      · exact .inr (.inr (.inr (.inr (.inr (.inl ⟨_, .inr (.inl ⟨_, rfl⟩), e⟩)))))
      · exact .inr (.inl ⟨_, h, by simp [Instr.wellFormed, namesRegister_of_ge h], e⟩)
    · exact .inr (.inr (.inr (.inr (.inr (.inr ⟨.inl ⟨_, rfl⟩, execJeq_not_taken reg hf⟩)))))
  | jne reg =>
    by_cases hf : s.fl = flEqual
    · exact .inr (.inr (.inr (.inr (.inr (.inr ⟨.inr ⟨_, rfl⟩, execJne_not_taken reg hf⟩)))))
    · rw [execJne_taken reg hf]
      obtain ⟨h, e⟩ | ⟨h, e⟩ := execJmp_cases (s := s) reg
      · exact .inr (.inr (.inr (.inr (.inr (.inl ⟨_, .inr (.inr ⟨_, rfl⟩), e⟩)))))
      · exact .inr (.inl ⟨_, h, by simp [Instr.wellFormed, namesRegister_of_ge h], e⟩)

end Sys2Proof.Machine
end

