-- ==== Sys2Proof/Laws/Memory.lean ====
section
/-! SUPPORT. Memory: every operation keeps the canonical form, and a read after a write. -/

namespace Sys2Proof.Machine

@[simp] theorem Memory.read_nil (a : Nat) : Memory.read [] a = unlistedByte := rfl

theorem Memory.read_cons (b : Nat) (w : Byte) (m : Memory) (a : Nat) :
    Memory.read ((b, w) :: m) a = if a = b then w else Memory.read m a := rfl

/-- What the canonical form of a non-empty memory says. -/
theorem Memory.wfFrom_cons {lo a : Nat} {v : Byte} {m : Memory} :
    Memory.wfFrom lo ((a, v) :: m) = true ↔
      lo ≤ a ∧ a < 256 ∧ v ≠ unlistedByte ∧ Memory.wfFrom (a + 1) m = true := by
  simp [Memory.wfFrom, and_assoc]

/-- A lower bound on the listed addresses may be weakened. -/
theorem Memory.wfFrom_mono {lo lo' : Nat} (h : lo' ≤ lo) : ∀ {m : Memory}, Memory.wfFrom lo m = true → Memory.wfFrom lo' m = true
  | [], _ => rfl
  | (_, _) :: _, hm => by
    rw [Memory.wfFrom_cons] at hm ⊢
    exact ⟨Nat.le_trans h hm.1, hm.2⟩

/-- Below the listed addresses every address reads as unlisted. -/
theorem Memory.read_below : ∀ {m : Memory} {lo a : Nat}, Memory.wfFrom lo m = true → a < lo → Memory.read m a = unlistedByte
  | [], _, _, _, _ => rfl
  | (_, _) :: _, _, _, hm, ha => by
    rw [Memory.wfFrom_cons] at hm
    rw [Memory.read_cons, if_neg (by omega)]
    exact Memory.read_below hm.2.2.2 (by omega)

theorem Memory.cons_wf {lo a : Nat} {v : Byte} {m : Memory} (hlo : lo ≤ a) (ha : a < 256)
    (hm : Memory.wfFrom (a + 1) m = true) : Memory.wfFrom lo (Memory.cons a v m) = true := by
  unfold Memory.cons
  split
  · exact Memory.wfFrom_mono (by omega) hm
  · rename_i hv
    exact Memory.wfFrom_cons.2 ⟨hlo, ha, hv, hm⟩

theorem Memory.read_cons_op {a b : Nat} {v : Byte} {m : Memory} (hm : Memory.wfFrom (a + 1) m = true) :
    Memory.read (Memory.cons a v m) b = if b = a then v else Memory.read m b := by
  unfold Memory.cons
  by_cases hb : b = a
  · subst hb
    by_cases hv : v = unlistedByte
    · rw [if_pos hv, if_pos rfl, hv]
      exact Memory.read_below hm (by omega)
    · simp [hv, Memory.read_cons]
  · by_cases hv : v = unlistedByte <;> simp [hv, hb, Memory.read_cons]

theorem Memory.wfFrom_write : ∀ {m : Memory} {lo a : Nat} {v : Byte}, Memory.wfFrom lo m = true → lo ≤ a → a < 256 →
    Memory.wfFrom lo (Memory.write m a v) = true
  | [], _, _, _, _, hlo, ha => Memory.cons_wf hlo ha rfl
  | (b, w) :: m, _, a, _, hm, hlo, ha => by
    have hm' := Memory.wfFrom_cons.1 hm
    unfold Memory.write
    split
    · rename_i hab
      exact Memory.cons_wf hlo ha (Memory.wfFrom_cons.2 ⟨hab, hm'.2⟩)
    · split
      · rename_i hab
        subst hab
        exact Memory.cons_wf hlo ha hm'.2.2.2
      · exact Memory.wfFrom_cons.2 ⟨hm'.1, hm'.2.1, hm'.2.2.1, Memory.wfFrom_write hm'.2.2.2 (by omega) ha⟩

/-- Writing one cell keeps the canonical form. -/
theorem Memory.wf_write {m : Memory} {a : Nat} {v : Byte} (hm : Memory.wf m = true) (ha : a < 256) :
    Memory.wf (Memory.write m a v) = true := Memory.wfFrom_write hm (Nat.zero_le a) ha

/-- Storing bytes keeps the canonical form. -/
theorem Memory.wf_storeBytes : ∀ {bytes : List Byte} {a : Nat} {m : Memory}, Memory.wf m = true →
    Memory.wf (storeBytes bytes a m) = true
  | [], _, _, hm => hm
  | _ :: _, a, _, hm => by
    unfold storeBytes
    refine Memory.wf_storeBytes ?_
    split
    · exact Memory.wf_write hm ‹_›
    · exact hm

theorem memRead_of_lt {m : Memory} {a : Nat} (h : a < 256) : memRead m a = some (Memory.read m a) := if_pos h

theorem memRead_of_ge {m : Memory} {a : Nat} (h : 256 ≤ a) : memRead m a = none := if_neg (Nat.not_lt.2 h)

end Sys2Proof.Machine
end

