-- ==== Sys2Proof/Laws/PerInstr.lean ====
section
/-! SUPPORT. Facts of each instruction as syntax, one lemma per constructor. -/

namespace Sys2Proof.Laws.RoundTrip

/-- An instruction's encoding decodes back to it, whatever bytes follow. -/
def Statement (i : Instr) : Prop := ∀ rest : List Byte, decode (encode i ++ rest) = .instr i

theorem hlt : Statement .hlt := fun _ => rfl
theorem ldi (reg imm : Byte) : Statement (.ldi reg imm) := fun _ => rfl
theorem mul (regA regB : Byte) : Statement (.mul regA regB) := fun _ => rfl
theorem prn (reg : Byte) : Statement (.prn reg) := fun _ => rfl
theorem cmp (regA regB : Byte) : Statement (.cmp regA regB) := fun _ => rfl
theorem jmp (reg : Byte) : Statement (.jmp reg) := fun _ => rfl
theorem jeq (reg : Byte) : Statement (.jeq reg) := fun _ => rfl
theorem jne (reg : Byte) : Statement (.jne reg) := fun _ => rfl

end Sys2Proof.Laws.RoundTrip
end

