-- ==== Sys2Proof/Laws/Step.lean ====
section
/-! SUPPORT. The step: what it is in each situation, and the fetch over the raw bytes at `pc`. -/

namespace Sys2Proof

/-! ### The byte classes of Safety.lean and the opcode table -/

/-- A byte is outside the opcode table of R72 exactly when the decoder finds no opcode for it. -/
theorem Machine.not_mem_opcodeBytes {b : Byte} : b ∉ Machine.opcodeBytes ↔ opcodeOfByte b = none := by
  rw [opcodeOfByte_eq_none]
  constructor
  · rintro h o rfl
    exact h (by cases o <;> decide)
  · intro h hm
    simp only [Machine.opcodeBytes, Machine.twoByteOpcodes, Machine.threeByteOpcodes, List.mem_cons, List.mem_append,
      List.not_mem_nil, or_false] at hm
    rcases hm with rfl | (rfl | rfl | rfl | rfl) | rfl | rfl | rfl
    · exact h .hlt rfl
    · exact h .prn rfl
    · exact h .jmp rfl
    · exact h .jeq rfl
    · exact h .jne rfl
    · exact h .ldi rfl
    · exact h .mul rfl
    · exact h .cmp rfl

theorem Machine.mem_threeByteOpcodes {b : Byte} :
    b ∈ Machine.threeByteOpcodes ↔ ∃ o : Opcode, b = o.byte ∧ o.format.operands = 2 := by
  constructor
  · intro h
    simp only [Machine.threeByteOpcodes, List.mem_cons, List.not_mem_nil, or_false] at h
    rcases h with rfl | rfl | rfl
    · exact ⟨.ldi, rfl, rfl⟩
    · exact ⟨.mul, rfl, rfl⟩
    · exact ⟨.cmp, rfl, rfl⟩
  · rintro ⟨o, rfl, h⟩
    cases o <;> first | exact absurd h (by decide) | decide

theorem Machine.mem_twoByteOpcodes {b : Byte} :
    b ∈ Machine.twoByteOpcodes ↔ ∃ o : Opcode, b = o.byte ∧ o.format.operands = 1 := by
  constructor
  · intro h
    simp only [Machine.twoByteOpcodes, List.mem_cons, List.not_mem_nil, or_false] at h
    rcases h with rfl | rfl | rfl | rfl
    · exact ⟨.prn, rfl, rfl⟩
    · exact ⟨.jmp, rfl, rfl⟩
    · exact ⟨.jeq, rfl, rfl⟩
    · exact ⟨.jne, rfl, rfl⟩
  · rintro ⟨o, rfl, h⟩
    cases o <;> first | exact absurd h (by decide) | decide

theorem Opcode.operands_le (o : Opcode) : o.format.operands ≤ 2 := by cases o <;> decide

/-- The instruction of an opcode with these operand bytes (those it has). -/
def Opcode.withOperands : Opcode → Byte → Byte → Instr
  | .hlt, _, _ => .hlt
  | .ldi, a, b => .ldi a b
  | .mul, a, b => .mul a b
  | .prn, a, _ => .prn a
  | .cmp, a, b => .cmp a b
  | .jmp, a, _ => .jmp a
  | .jeq, a, _ => .jeq a
  | .jne, a, _ => .jne a

end Sys2Proof

namespace Sys2Proof.Machine

variable {s : State}

theorem step_of_running (h : s.Running) : step s = runInstruction s := by
  obtain ⟨h1, h2, h3⟩ := h
  simp [step, h1, h2, h3]

theorem step_of_ended (hr : s.rst = false) (hw : s.hostWrite = none) (h : s.Ended) : step s = .next s := by
  obtain h | h := h <;> simp [step, hr, hw, h]

theorem step_of_rst (h : s.rst = true) : step s = .next s.holdInReset := by simp [step, h]

theorem step_of_hostWrite {w : HostWrite} (hr : s.rst = false) (hw : s.hostWrite = some w) :
    step s = .refused (.hostWriteOutsideReset w) := by simp [step, hr, hw]

/-- The four situations a step can be taken in. -/
theorem step_situations (s : State) :
    (s.rst = true ∧ step s = .next s.holdInReset) ∨
    (∃ w, s.rst = false ∧ s.hostWrite = some w ∧ step s = .refused (.hostWriteOutsideReset w)) ∨
    (s.Running ∧ step s = runInstruction s) ∨
    (s.rst = false ∧ s.hostWrite = none ∧ s.Ended ∧ step s = .next s) := by
  cases hr : s.rst with
  | true => exact .inl ⟨rfl, step_of_rst hr⟩
  | false =>
    cases hw : s.hostWrite with
    | some w => exact .inr (.inl ⟨w, rfl, rfl, step_of_hostWrite hr hw⟩)
    | none =>
      cases hs : s.status with
      | running => exact .inr (.inr (.inl ⟨⟨hr, hw, hs⟩, step_of_running ⟨hr, hw, hs⟩⟩))
      | halted => exact .inr (.inr (.inr ⟨rfl, rfl, .inl hs, step_of_ended hr hw (.inl hs)⟩))
      | faulted => exact .inr (.inr (.inr ⟨rfl, rfl, .inr hs, step_of_ended hr hw (.inr hs)⟩))

theorem executes_iff : s.executes = true ↔ s.Running := by
  simp [State.executes, State.Running, and_assoc]

/-- The byte the fetch reads at an offset that exists. -/
theorem memRead_byteAt {k : Nat} (h : s.pc.toNat + k < 256) : memRead s.mem (s.pc.toNat + k) = some (s.byteAt k) :=
  memRead_of_lt h

theorem fetch_past_memory (h : 256 ≤ s.pc.toNat) : fetch s = .missingByte 0 := by
  simp [fetch, decodeFrom, memRead_of_ge h]

theorem fetch_unknown (h : s.pc.toNat < 256) (ho : opcodeOfByte (s.byteAt 0) = none) :
    fetch s = .unknownOpcode (s.byteAt 0) := by
  have h0 := memRead_byteAt (k := 0) (s := s) h
  simp only [fetch, decodeFrom, h0, ho]

/-- The fetch of a known opcode: the instruction, where its last byte exists; else the first byte that does not, which is at 256. -/
theorem fetch_opcode {o : Opcode} (h : s.pc.toNat < 256) (ho : s.byteAt 0 = o.byte) :
    fetch s = if s.pc.toNat + o.format.operands < 256 then .instr (o.withOperands (s.byteAt 1) (s.byteAt 2))
      else .missingByte (256 - s.pc.toNat) := by
  have h0 := memRead_byteAt (k := 0) (s := s) h
  rw [ho, Nat.add_zero] at h0
  by_cases h1 : s.pc.toNat + 1 < 256
  · have e1 := memRead_byteAt h1
    by_cases h2 : s.pc.toNat + 2 < 256
    · have e2 := memRead_byteAt h2
      cases o <;>
        simp [fetch, decodeFrom, decodeR, decodeRR, h0, e1, e2, h, h1, h2, Opcode.format, Format.operands, Opcode.withOperands]
    · have e2 : memRead s.mem (s.pc.toNat + 2) = none := memRead_of_ge (by omega)
      have hp : 256 - s.pc.toNat = 2 := by omega
      cases o <;>
        simp [fetch, decodeFrom, decodeR, decodeRR, h0, e1, e2, h, h1, h2, hp, Opcode.format, Format.operands,
          Opcode.withOperands]
  · have e1 : memRead s.mem (s.pc.toNat + 1) = none := memRead_of_ge (by omega)
    have h2 : ¬ s.pc.toNat + 2 < 256 := by omega
    have hp : 256 - s.pc.toNat = 1 := by omega
    cases o <;>
      simp [fetch, decodeFrom, decodeR, decodeRR, h0, e1, h, h1, h2, hp, Opcode.format, Format.operands, Opcode.withOperands]

/-- Everything a fetch can find. -/
theorem fetch_cases (s : State) :
    (256 ≤ s.pc.toNat ∧ fetch s = .missingByte 0) ∨
    (s.pc.toNat < 256 ∧ opcodeOfByte (s.byteAt 0) = none ∧ fetch s = .unknownOpcode (s.byteAt 0)) ∨
    (∃ o : Opcode, s.byteAt 0 = o.byte ∧ s.pc.toNat + o.format.operands < 256 ∧
      fetch s = .instr (o.withOperands (s.byteAt 1) (s.byteAt 2))) ∨
    (∃ o : Opcode, s.byteAt 0 = o.byte ∧ s.pc.toNat < 256 ∧ 256 ≤ s.pc.toNat + o.format.operands ∧
      fetch s = .missingByte (256 - s.pc.toNat)) := by
  by_cases h : s.pc.toNat < 256
  · cases ho : opcodeOfByte (s.byteAt 0) with
    | none => exact .inr (.inl ⟨h, rfl, fetch_unknown h ho⟩)
    | some o =>
      have hb := opcodeOfByte_eq_some.1 ho
      have hf := fetch_opcode h hb
      by_cases hl : s.pc.toNat + o.format.operands < 256
      · exact .inr (.inr (.inl ⟨o, hb, hl, by rw [hf, if_pos hl]⟩))
      · exact .inr (.inr (.inr ⟨o, hb, h, Nat.not_lt.1 hl, by rw [hf, if_neg hl]⟩))
  · exact .inl ⟨Nat.not_lt.1 h, fetch_past_memory (Nat.not_lt.1 h)⟩

/-- The bytes of an instruction at `pc` are fetched as that instruction. -/
theorem fetch_of_holdsAt {i : Instr} (h : s.HoldsAt s.pc.toNat (encode i)) : fetch s = .instr i := by
  refine decodeFrom_of_encode i fun k hk => ?_
  have := h.1
  rw [memRead_of_lt (by omega), h.2 k hk]

/-- A running core's step is the execution of the instruction fetched. -/
theorem step_of_fetch_instr {i : Instr} (h : s.Running) (hf : fetch s = .instr i) : step s = exec i s := by
  rw [step_of_running h, runInstruction, hf]

theorem step_of_fetch_unknown {op : Byte} (h : s.Running) (hf : fetch s = .unknownOpcode op) :
    step s = .next (unknownOpcode op s) := by
  rw [step_of_running h, runInstruction, hf]

theorem step_of_fetch_missing {k : Nat} (h : s.Running) (hf : fetch s = .missingByte k) :
    step s = .next (memRangeFault (s.pc.toNat + k) s) := by
  rw [step_of_running h, runInstruction, hf]

/-- The step over a known opcode whose operand bytes exist. -/
theorem step_of_opcode {o : Opcode} (h : s.Running) (hb : s.byteAt 0 = o.byte) (hl : s.pc.toNat + o.format.operands < 256) :
    step s = exec (o.withOperands (s.byteAt 1) (s.byteAt 2)) s := by
  have hf := fetch_opcode (by omega) hb
  rw [if_pos hl] at hf
  exact step_of_fetch_instr h hf

/-- What a fault of the running core's step says by its cause (R145..R149). -/
def FaultOrigin (s : State) (cause : FaultCause) (info : PcWord) : Prop :=
  match cause with
  | .memRange => (256 ≤ s.pc.toNat ∧ info = s.pc) ∨ (254 ≤ s.pc.toNat ∧ s.pc.toNat < 256 ∧ info = 256)
  | .regRange => ∃ b : Byte, 8 ≤ b.toNat ∧ info = zext9 b
  | .unknownOpcode => s.pc.toNat < 256 ∧ opcodeOfByte (s.byteAt 0) = none ∧ s.config.unknownOpcodePolicy = .fault ∧
      info = zext9 (s.byteAt 0)
  | .unsupportedAlu => False

/-- Everything a step of the running core can do, over the raw bytes at `pc`: it faults; it halts; LDI or MUL writes a register; CMP
writes `FL`; PRN emits; a jump is taken; a jump is not taken; an unknown opcode is passed over. -/
theorem step_running_cases (h : s.Running) :
    (∃ cause info, FaultOrigin s cause info ∧ step s = .next (s.raise cause info)) ∨
    (s.byteAt 0 = 0x01 ∧ s.pc.toNat < 256 ∧ step s = .next { s with status := .halted }) ∨
    (∃ (j : Fin 8) (v : Byte), (s.byteAt 0 = 0x82 ∨ s.byteAt 0 = 0xA2) ∧ (s.byteAt 1).toNat = j.val ∧ s.pc.toNat + 2 < 256 ∧
      step s = .next ((s.writeReg j v).advance 3)) ∨
    (∃ u v, s.byteAt 0 = 0xA7 ∧ s.pc.toNat + 2 < 256 ∧ step s = .next ((s.writeFl (compareFlags u v)).advance 3)) ∨
    (∃ h8 : (s.byteAt 1).toNat < 8, s.byteAt 0 = 0x47 ∧ s.pc.toNat + 1 < 256 ∧
      step s = .next ((s.output (s.readReg ⟨_, h8⟩)).advance 2)) ∨
    (∃ h8 : (s.byteAt 1).toNat < 8, (s.byteAt 0 = 0x54 ∨ takenWith (s.byteAt 0) s.fl) ∧ s.pc.toNat + 1 < 256 ∧
      step s = .next (s.setPc (zext9 (s.readReg ⟨_, h8⟩)))) ∨
    ((s.byteAt 0 = 0x55 ∨ s.byteAt 0 = 0x56) ∧ ¬ takenWith (s.byteAt 0) s.fl ∧ s.pc.toNat + 1 < 256 ∧
      step s = .next (s.advance 2)) ∨
    (s.pc.toNat < 256 ∧ opcodeOfByte (s.byteAt 0) = none ∧ s.config.unknownOpcodePolicy = .legacyNop ∧
      step s = .next (s.advance 1)) := by
  have raised : ∀ b : Byte, 8 ≤ b.toNat → FaultOrigin s .regRange (zext9 b) := fun b hb => ⟨b, hb, rfl⟩
  rcases fetch_cases s with ⟨hp, hf⟩ | ⟨hp, ho, hf⟩ | ⟨o, hb, hl, hf⟩ | ⟨o, hb, hp, hl, hf⟩
  · refine .inl ⟨.memRange, _, .inl ⟨hp, ?_⟩, step_of_fetch_missing h hf⟩
    exact BitVec.eq_of_toNat_eq (by simp)
  · rw [step_of_fetch_unknown h hf, unknownOpcode]
    cases hc : s.config.unknownOpcodePolicy with
    | fault => exact .inl ⟨.unknownOpcode, _, ⟨hp, ho, hc, rfl⟩, rfl⟩
    | legacyNop => exact .inr (.inr (.inr (.inr (.inr (.inr (.inr ⟨hp, ho, rfl, rfl⟩))))))
  · rw [step_of_fetch_instr h hf]
    cases o <;> simp only [Opcode.format, Format.operands, Opcode.withOperands] at hl ⊢
    case hlt => exact .inr (.inl ⟨hb, by omega, rfl⟩)
    case ldi =>
      rcases execLdi_cases (s := s) (s.byteAt 1) (s.byteAt 2) with ⟨_, e⟩ | ⟨h8, e⟩
      · exact .inr (.inr (.inl ⟨_, _, .inl hb, rfl, hl, e⟩))
      · exact .inl ⟨_, _, raised _ h8, e⟩
    case mul =>
      rcases execMul_cases (s := s) (s.byteAt 1) (s.byteAt 2) with ⟨_, _, e⟩ | ⟨h8, e⟩ | ⟨-, h8, e⟩
      · exact .inr (.inr (.inl ⟨_, _, .inr hb, rfl, hl, e⟩))
      · exact .inl ⟨_, _, raised _ h8, e⟩
      · exact .inl ⟨_, _, raised _ h8, e⟩
    case prn =>
      rcases execPrn_cases (s := s) (s.byteAt 1) with ⟨h8, e⟩ | ⟨h8, e⟩
      · exact .inr (.inr (.inr (.inr (.inl ⟨h8, hb, hl, e⟩))))
      · exact .inl ⟨_, _, raised _ h8, e⟩
    case cmp =>
      rcases execCmp_cases (s := s) (s.byteAt 1) (s.byteAt 2) with ⟨_, _, e⟩ | ⟨h8, e⟩ | ⟨-, h8, e⟩
      · exact .inr (.inr (.inr (.inl ⟨_, _, hb, hl, e⟩)))
      · exact .inl ⟨_, _, raised _ h8, e⟩
      · exact .inl ⟨_, _, raised _ h8, e⟩
    case jmp =>
      rcases execJmp_cases (s := s) (s.byteAt 1) with ⟨h8, e⟩ | ⟨h8, e⟩
      · exact .inr (.inr (.inr (.inr (.inr (.inl ⟨h8, .inl hb, hl, e⟩)))))
      · exact .inl ⟨_, _, raised _ h8, e⟩
    case jeq =>
      by_cases hq : s.fl = flEqual
      · rw [execJeq_taken _ hq]
        rcases execJmp_cases (s := s) (s.byteAt 1) with ⟨h8, e⟩ | ⟨h8, e⟩
        · exact .inr (.inr (.inr (.inr (.inr (.inl ⟨h8, .inr (.inl ⟨hb, hq⟩), hl, e⟩)))))
        · exact .inl ⟨_, _, raised _ h8, e⟩
      · refine .inr (.inr (.inr (.inr (.inr (.inr (.inl ⟨.inl hb, ?_, hl, execJeq_not_taken _ hq⟩))))))
        rw [hb]
        exact fun ht => ht.elim (fun h => hq h.2) (fun h => absurd h.1 (by decide))
    case jne =>
      by_cases hq : s.fl = flEqual
      · refine .inr (.inr (.inr (.inr (.inr (.inr (.inl ⟨.inr hb, ?_, hl, execJne_not_taken _ hq⟩))))))
        rw [hb]
        exact fun ht => ht.elim (fun h => absurd h.1 (by decide)) (fun h => h.2 hq)
      · rw [execJne_taken _ hq]
        rcases execJmp_cases (s := s) (s.byteAt 1) with ⟨h8, e⟩ | ⟨h8, e⟩
        · exact .inr (.inr (.inr (.inr (.inr (.inl ⟨h8, .inr (.inr ⟨hb, hq⟩), hl, e⟩)))))
        · exact .inl ⟨_, _, raised _ h8, e⟩
  · have := o.operands_le
    refine .inl ⟨.memRange, _, .inr ⟨by omega, hp, ?_⟩, step_of_fetch_missing h hf⟩
    rw [show s.pc.toNat + (256 - s.pc.toNat) = 256 by omega]
    rfl

end Sys2Proof.Machine
end

