-- ==== Sys2Proof/Tests/Slice0.lean ====
section
/-! SUPPORT. Small tests of the model and the witnesses of the statements' hypotheses. Expected results are those of
95_test_vectors.md (named by their vector) or are computed by hand from the rule named. -/

namespace Sys2Proof.Tests

open Sys2Proof.Machine

/-- The reset state with these bytes at `pc`. -/
def at_ (pc : PcWord) (bytes : List Byte) : State := { State.reset with pc := pc, mem := storeBytes bytes pc.toNat [] }

/-- The state with `FL` and two registers set. -/
def with_ (s : State) (fl : Byte) (i : Fin 8) (u : Byte) (j : Fin 8) (v : Byte) : State :=
  { s with fl := fl, x := (s.x.set i.val u).set j.val v }

/-- The state a step leads to, if it leads to one. -/
def after (s : State) : Option State :=
  match step s with
  | .next t => some t
  | .fault _ => none
  | .refused _ => none

/-- What the tests look at: `status`, `pc` and the fault record (cause code, address, info). -/
def summary (s : State) : Option (Status × Nat × Nat × Nat × Nat) :=
  (after s).map fun t => (t.status, t.pc.toNat, t.faultCausePort.toNat, t.fault.fpc.toNat, t.fault.info.toNat)

/-! ### Well-formedness: each check refuses an ill-formed term -/

theorem test_illformed_ldi : (Instr.ldi 8 0).wellFormed = false := by decide
theorem test_illformed_mul_first : (Instr.mul 8 0).wellFormed = false := by decide
theorem test_illformed_mul_second : (Instr.mul 0 8).wellFormed = false := by decide
theorem test_illformed_prn : (Instr.prn 200).wellFormed = false := by decide
theorem test_illformed_cmp_first : (Instr.cmp 255 0).wellFormed = false := by decide
theorem test_illformed_cmp_second : (Instr.cmp 0 11).wellFormed = false := by decide
theorem test_illformed_jmp : (Instr.jmp 9).wellFormed = false := by decide
theorem test_illformed_jeq : (Instr.jeq 13).wellFormed = false := by decide
theorem test_illformed_jne : (Instr.jne 128).wellFormed = false := by decide
theorem test_wellformed_edges : (Instr.ldi 7 255).wellFormed = true ∧ (Instr.mul 7 0).wellFormed = true := by decide

/-! ### Decoding: words written out from R66 and R72 -/

theorem test_decode_hlt : decode [0b00000001] = .instr .hlt := by decide
theorem test_decode_ldi : decode [0b10000010, 0b00000011, 0b11111111] = .instr (.ldi 3 255) := by decide
theorem test_decode_mul : decode [0b10100010, 0b00000111, 0b00000000] = .instr (.mul 7 0) := by decide
theorem test_decode_prn : decode [0b01000111, 0b00000101] = .instr (.prn 5) := by decide
theorem test_decode_cmp : decode [0b10100111, 0b00000000, 0b00000001] = .instr (.cmp 0 1) := by decide
theorem test_decode_jmp : decode [0b01010100, 0b00000010] = .instr (.jmp 2) := by decide
theorem test_decode_jeq : decode [0b01010101, 0b11001000] = .instr (.jeq 200) := by decide
theorem test_decode_jne : decode [0b01010110, 0b00000011] = .instr (.jne 3) := by decide
/-- V9: 0xA0, and 0xC2 whose bits 7..6 would say three operand bytes, are unknown opcodes. -/
theorem test_decode_unknown : decode [0xA0, 0, 1] = .unknownOpcode 0xA0 ∧ decode [0xC2] = .unknownOpcode 0xC2 := by decide
theorem test_decode_truncated : decode [] = .missingByte 0 ∧ decode [0x82] = .missingByte 1 ∧ decode [0xA7, 0] = .missingByte 2 := by
  decide
/-- R79's example: `LDI R0,8` is the bytes 10000010 00000000 00001000. -/
theorem test_encode_ldi : encode (.ldi 0 8) = [0b10000010, 0b00000000, 0b00001000] := by decide
theorem test_table_word : decodeTableWord 24 0x080082 = some (.ldi 0 8) ∧ decodeTableWord 8 0xA2 = some (.mul 0 0) ∧
    decodeTableWord 8 0x00 = none := by decide

/-! ### Instructions (V1 to V9) -/

/-- V1: 255 * 255 = 65025 gives 1. -/
theorem test_mul_wraps : (after (with_ (at_ 0x20 [0xA2, 0, 1]) 0b010 0 255 1 255)).map
    (fun t => (t.x[0].toNat, t.x[1].toNat, t.pc.toNat, t.fl.toNat)) = some (1, 255, 0x23, 0b010) := by decide
/-- V1: operand0 is checked first. -/
theorem test_mul_first_check : summary (at_ 0x20 [0xA2, 9, 10]) = some (.faulted, 0x20, 2, 0x20, 9) := by decide
/-- V3: the comparison is unsigned. -/
theorem test_cmp_unsigned : (after (with_ (at_ 0 [0xA7, 0, 1]) 0b001 0 0 1 255)).map (·.fl.toNat) = some 0b100 := by decide
/-- V3: a faulting CMP keeps `FL`. -/
theorem test_cmp_fault_keeps_fl : (after (with_ (at_ 0 [0xA7, 0, 11]) 0b010 0 1 1 1)).map
    (fun t => (t.fl.toNat, t.faultCausePort.toNat, t.fault.info.toNat)) = some (0b010, 2, 11) := by decide
/-- V4: R7 is an ordinary register; an LDI at 253 completes and leaves `pc` at 256. -/
theorem test_ldi_last_place : (after (at_ 0xFD [0x82, 7, 1])).map (fun t => (t.x[7].toNat, t.pc.toNat, t.status)) =
    some (1, 256, .running) := by decide
/-- V4: an LDI at 0xFE lacks its second operand byte. -/
theorem test_ldi_past_memory : summary (at_ 0xFE [0x82, 0]) = some (.faulted, 0xFE, 1, 0xFE, 256) := by decide
/-- V5. -/
theorem test_prn_emits : (after (with_ (at_ 0 [0x47, 0]) 0 0 72 1 9)).map (fun t => (t.out, t.pc.toNat)) = some ([72], 2) ∧
    (with_ (at_ 0 [0x47, 0]) 0 0 72 1 9).outPort = some 72 := by decide
/-- V5: a PRN of no register emits nothing. -/
theorem test_prn_fault : (after (at_ 0 [0x47, 8])).map (·.out) = some [] ∧ summary (at_ 0 [0x47, 8]) = some (.faulted, 0, 2, 0, 8) ∧
    (at_ 0 [0x47, 8]).outPort = none := by decide
/-- V6. -/
theorem test_jmp_lands : summary (with_ (at_ 0x0C [0x54, 2]) 0 2 16 0 0) = some (.running, 16, 0, 0, 0) := by decide
/-- V6: a JMP at 0xFF lacks its operand byte. -/
theorem test_jmp_past_memory : summary (at_ 0xFF [0x54]) = some (.faulted, 0xFF, 1, 0xFF, 256) := by decide
/-- V7: not taken, the register is not checked. -/
theorem test_jeq_not_taken_unchecked : summary (at_ 12 [0x55, 0xC8]) = some (.running, 14, 0, 0, 0) := by decide
/-- V7: taken, the register is checked. -/
theorem test_jeq_taken_checked : summary (with_ (at_ 12 [0x55, 0xC8]) 0b001 0 0 0 0) = some (.faulted, 12, 2, 12, 200) := by decide
/-- V7: at reset `FL` is 0, which is not `EQUAL`. -/
theorem test_jne_taken_at_reset : summary (with_ (at_ 12 [0x56, 2]) 0 2 16 0 0) = some (.running, 16, 0, 0, 0) := by decide
/-- V7. -/
theorem test_jne_not_taken : summary (with_ (at_ 12 [0x56, 2]) 0b001 2 16 0 0) = some (.running, 14, 0, 0, 0) := by decide
/-- V8: a HLT at 0xFF; a step in HALTED changes nothing. -/
theorem test_hlt_last_place : summary (at_ 0xFF [0x01]) = some (.halted, 0xFF, 0, 0, 0) := by decide
theorem test_halted_stays : after { at_ 4 [0x82, 0, 1] with status := .halted } = some { at_ 4 [0x82, 0, 1] with status := .halted } := by
  decide
/-- V8: `pc` = 256 at the start of a step. -/
theorem test_fetch_at_256 : summary (at_ 256 []) = some (.faulted, 256, 1, 256, 256) := by decide
/-- V9: 0xC2 at 4 under each policy. -/
theorem test_unknown_fault : summary (at_ 4 [0xC2, 0x01]) = some (.faulted, 4, 3, 4, 0xC2) := by decide
theorem test_unknown_nop : summary { at_ 4 [0xC2, 0x01] with config := ⟨.legacyNop⟩ } = some (.running, 5, 0, 0, 0) := by decide

/-! ### The ALU (V2), ports, reset, host and toolchain -/

theorem test_alu_add : alu 0b00 200 100 = .value 44 ∧ alu 0b00 127 128 = .value 255 ∧ alu 0b11 1 2 = .unsupported := by decide
/-- R89, R149: the unsupported select is recorded with info 3. -/
theorem test_alu_unsupported : (withAlu 0b11 0 1 (at_ 7 []) id).fault = ⟨some .unsupportedAlu, 7, 3⟩ := by decide
/-- V10: after `rst`, the reset values, memory kept. -/
theorem test_reset_keeps_memory :
    (with_ { at_ 9 [0x55, 13] with status := .faulted, fault := ⟨some .regRange, 9, 13⟩ } 0b001 0 5 1 5).assertRst.releaseRst =
      { State.reset with mem := [(9, 0x55), (10, 13)] } := by decide
/-- R48: a host write under `rst`, and the one that is refused. -/
theorem test_host_write : (after (State.powerOn.requestWrite 5 0x82)).map (·.mem) = some [(5, 0x82)] ∧
    after (State.reset.requestWrite 5 0x82) = none := by decide
theorem test_boot : boot [0x01, 0x00, 0x47] State.powerOn = .released { State.reset with mem := [(0, 0x01), (2, 0x47)] } := by decide
theorem test_fetch_word_runs : (after (State.reset.withFetchWord 24 0x080082)).map (fun t => (t.x[0].toNat, t.pc.toNat)) = some (8, 3) := by
  decide
/-- R79's example line, and a malformed one (R150). -/
theorem test_program_file : parseProgramFile [
    "10000010 # LDI R0,8".toList, "".toList, "# a comment".toList, "00000000".toList, "00001000".toList] = .ok [0x82, 0, 8] ∧
    parseProgramFile ["00000001".toList, "0101".toList] = .error (.malformedLine 1) := ⟨rfl, rfl⟩
/-- R77's example. -/
theorem test_asm : [Instr.ldi 0 8, .mul 0 1, .prn 0, .hlt].map asmText = [some "LDI R0,8", some "MUL R0,R1", some "PRN R0", some "HLT"] ∧
    asmText (.jeq 13) = none := by decide

/-! ### Witnesses: for each statement with hypotheses, states and operands that meet them together, each clause at an edge of its range -/

theorem witness_StepRunsDecodedInstruction : (at_ 253 [0x82, 0, 7]).Running ∧ (at_ 253 [0x82, 0, 7]).HoldsAt 253 (encode (.ldi 0 7)) ∧
    (at_ 255 [0x01]).HoldsAt 255 (encode .hlt) := by decide

theorem witness_OpcodeFetchPastMemoryFaults : (at_ 256 []).Running ∧ 256 ≤ (at_ 256 []).pc.toNat ∧ 256 ≤ (at_ 511 []).pc.toNat := by
  decide

theorem witness_MemRangeCases : (at_ 255 [0x47]).Running ∧ (at_ 255 [0x47]).pc.toNat ≤ 256 ∧
    (at_ 255 [0x47]).byteAt 0 ∈ twoByteOpcodes ++ threeByteOpcodes ∧ (at_ 254 [0xA2, 0]).Running ∧
    (at_ 254 [0xA2, 0]).byteAt 0 ∈ threeByteOpcodes ∧
    (after (at_ 254 [0xA2, 0])).map (fun t => (t.status, t.fault.cause)) = some (.faulted, some .memRange) := by decide

theorem witness_UnknownOpcodeByPolicy : (at_ 255 [0xA0]).Running ∧ (at_ 255 [0xA0]).pc.toNat < 256 ∧
    (at_ 255 [0xA0]).byteAt 0 ∉ opcodeBytes ∧ (at_ 0 []).byteAt 0 ∉ opcodeBytes ∧ (at_ 255 [0xA0]).config.unknownOpcodePolicy = .fault ∧
    State.Running { at_ 255 [0xA0] with config := ⟨.legacyNop⟩ } := by decide

theorem witness_ReadsInAddressOrder : (at_ 255 [0xA7]).Running ∧ (at_ 255 [0xA7]).byteAt 0 ∈ threeByteOpcodes ∧
    (at_ 255 [0xA7]).readAddresses = [255] ∧ (at_ 254 [0x56, 9]).readAddresses = [254, 255] ∧
    (at_ 3 [0xFF]).readAddresses = [3] ∧ (at_ 256 []).readAddresses = [] := by decide

/-- Two running states with different memories that agree on the bytes read: only the unread cell 9 differs. -/
theorem witness_StepReadsOnlyItsOwnBytes : (at_ 0 [0x54, 2]).Running ∧ (at_ 0 [0x54, 2]).readAddresses = [0, 1] ∧
    [(0, 0x54), (1, 2), (9, 1)] ≠ (at_ 0 [0x54, 2]).mem ∧
    ∀ a ∈ [0, 1], Memory.read [(0, 0x54), (1, 2), (9, 1)] a = Memory.read (at_ 0 [0x54, 2]).mem a := by decide

theorem witness_HltHalts : (at_ 255 [0x01]).Running ∧ (at_ 255 [0x01]).pc.toNat < 256 ∧ (at_ 255 [0x01]).byteAt 0 = 0x01 := by decide

/-- The edges of a three-byte instruction `op`: at 255 and 254 an operand byte is missing; at 253 it completes or its register is
checked. -/
abbrev ThreeByteEdges (op : Byte) : Prop :=
  (at_ 255 [op]).Running ∧ (at_ 255 [op]).byteAt 0 = op ∧ (at_ 255 [op]).pc.toNat + 1 ≥ 256 ∧
  (at_ 254 [op, 0]).byteAt 0 = op ∧ (at_ 254 [op, 0]).pc.toNat + 1 < 256 ∧ (at_ 254 [op, 0]).pc.toNat + 2 ≥ 256 ∧
  (at_ 253 [op, 8, 0]).byteAt 0 = op ∧ (at_ 253 [op, 8, 0]).pc.toNat + 2 < 256 ∧ ((at_ 253 [op, 8, 0]).byteAt 1).toNat ≥ 8 ∧
  ((at_ 253 [op, 7, 8]).byteAt 1).toNat < 8 ∧ ((at_ 253 [op, 7, 8]).byteAt 2).toNat ≥ 8 ∧
  ((at_ 253 [op, 7, 7]).byteAt 1).toNat < 8 ∧ ((at_ 253 [op, 7, 7]).byteAt 2).toNat < 8 ∧ (at_ 253 [op, 7, 7]).Running

theorem witness_LdiLoadsImmediate : ThreeByteEdges 0x82 := by decide
theorem witness_MulMultipliesModulo256 : ThreeByteEdges 0xA2 := by decide
theorem witness_CmpSetsFlags : ThreeByteEdges 0xA7 ∧ (with_ (at_ 253 [0xA7, 0, 1]) 0 0 0 1 255).x[0].toNat <
    (with_ (at_ 253 [0xA7, 0, 1]) 0 0 0 1 255).x[1].toNat := by decide

/-- The edges of a two-byte instruction `op`: at 255 its operand byte is missing; at 254 it completes or its register is checked. -/
abbrev TwoByteEdges (op fl : Byte) : Prop :=
  (at_ 255 [op]).Running ∧ (at_ 255 [op]).byteAt 0 = op ∧ (at_ 255 [op]).pc.toNat = 255 ∧
  (with_ (at_ 254 [op, 8]) fl 0 0 0 0).Running ∧ (with_ (at_ 254 [op, 8]) fl 0 0 0 0).byteAt 0 = op ∧
  (with_ (at_ 254 [op, 8]) fl 0 0 0 0).pc.toNat + 1 < 256 ∧ ((with_ (at_ 254 [op, 8]) fl 0 0 0 0).byteAt 1).toNat ≥ 8 ∧
  ((with_ (at_ 254 [op, 7]) fl 0 0 0 0).byteAt 1).toNat < 8 ∧ (with_ (at_ 254 [op, 7]) fl 0 0 0 0).fl = fl

theorem witness_PrnEmitsRegister : TwoByteEdges 0x47 0 := by decide
theorem witness_JmpGoesToRegister : TwoByteEdges 0x54 0 := by decide
theorem witness_JeqTakenOnEqual : TwoByteEdges 0x55 0b001 ∧ TwoByteEdges 0x55 0b100 := by decide
theorem witness_JneTakenOnNotEqual : TwoByteEdges 0x56 0b010 ∧ TwoByteEdges 0x56 0b001 := by decide

/-- Register operands at both ends of 0..7 and of 8..255, for the statements about the meanings. -/
theorem witness_register_operands : (0 : Byte).toNat < 8 ∧ (7 : Byte).toNat < 8 ∧ 8 ≤ (8 : Byte).toNat ∧ 8 ≤ (255 : Byte).toNat ∧
    State.reset.fl ≠ 0b001 ∧ (with_ State.reset 0b001 0 0 0 0).fl = 0b001 := by decide

theorem witness_WellFormedInstructionsComplete : (Instr.mul 7 0).wellFormed = true ∧ Instr.hlt.wellFormed = true ∧
    State.reset.status = .running := by decide

theorem witness_ExecFrame : ∃ t, exec (.ldi 3 9) State.reset = .next t ∧ t.x[3] = 9 ∧ t.x[0] = State.reset.x[0] := ⟨_, rfl, by decide⟩

theorem witness_JeqAndJneAreComplements : (with_ State.reset 0b001 0 0 0 0).fl = 0b001 ∧ State.reset.fl ≠ 0b001 ∧
    FlLegal State.reset.fl ∧ FlLegal 0b100 ∧ FlLegal 0b010 ∧ FlLegal 0b001 := by decide

theorem witness_AluSelects : alu 0b01 State.reset.x[0] State.reset.x[7] = .value 0 ∧ alu 0b10 State.reset.x[0] State.reset.x[7] = .flags 1 ∧
    alu 0b11 State.reset.x[0] State.reset.x[7] = .unsupported ∧ (254 : Byte).toNat < (255 : Byte).toNat := by decide

/-- A state that meets the invariant with a fault recorded, one step on from one that meets it with none. -/
theorem witness_StepKeepsInvariant : (∀ pc op, (pc, op) ∈ [((4 : PcWord), (0xA0 : Byte)), (255, 0x47)] → (at_ pc [op]).Inv) ∧
    (after (at_ 4 [0xA0])).map (·.status) = some .faulted := by
  refine ⟨?_, by decide⟩
  intro pc op h
  simp only [List.mem_cons, List.not_mem_nil, or_false, Prod.mk.injEq] at h
  rcases h with ⟨rfl, rfl⟩ | ⟨rfl, rfl⟩ <;> exact ⟨by decide, by decide, by decide, by decide, by decide, rfl, by decide⟩

theorem witness_OnlyCmpWritesFl : (at_ 253 [0xA7, 0, 0]).rst = false ∧ (after (at_ 253 [0xA7, 0, 0])).map (fun t => (t.status, t.fl)) =
    some (.running, 0b001) ∧ (at_ 253 [0xA7, 0, 0]).fl = 0 := by decide

theorem witness_OnlyLdiAndMulWriteRegisters : (at_ 0 [0x82, 7, 1]).rst = false ∧
    (after (at_ 0 [0x82, 7, 1])).map (·.x[7]) = some 1 ∧ (at_ 0 [0x82, 7, 1]).x[7] = 0 := by decide

theorem witness_CoreNeverWritesMemory : (at_ 0 [0xA2, 0, 0]).rst = false ∧ (after (at_ 0 [0xA2, 0, 0])).isSome = true := by decide

theorem witness_OutputPortMatchesChannel : (at_ 254 [0x47, 7]).rst = false ∧ (after (at_ 254 [0x47, 7])).isSome = true ∧
    (at_ 254 [0x47, 7]).outPort = some 0 ∧ (at_ 255 [0x47]).outPort = none := by decide

theorem witness_PcSequencing : (at_ 256 []).Running ∧ (at_ 256 []).pc.toNat ≤ 256 ∧ (at_ 0 [0x01]).Running := by decide

/-- Each fault condition of R152 as the first, and a state with none. -/
theorem witness_FaultPriority : (at_ 256 []).FirstFault 0 .memRange 256 ∧ (at_ 4 [0xA0]).FirstFault 1 .unknownOpcode 0xA0 ∧
    (at_ 255 [0xA2]).FirstFault 2 .memRange 256 ∧ (at_ 254 [0xA2, 9]).FirstFault 3 .memRange 256 ∧
    (at_ 0 [0xA2, 9, 10]).FirstFault 4 .regRange 9 ∧ (at_ 0 [0xA2, 7, 10]).FirstFault 5 .regRange 10 ∧
    (at_ 0 [0x01]).NoFaultCondition ∧ (at_ 0 [0x55, 200]).NoFaultCondition ∧ (at_ 0 [0x01]).Running := by
  have first : ∀ (s : State) (k : Nat) (c : FaultCause) (n : Nat) (p : Prop), s.faultConditions[k]? = some (p, c, n) → p →
      (∀ e ∈ s.faultConditions.take k, ¬ e.1) → s.FirstFault k c n := by
    intro s k c n p hk hp hb
    refine ⟨p, hk, hp, fun j e hj he => hb e ?_⟩
    rw [List.mem_take_iff_getElem]
    obtain ⟨hl, rfl⟩ := List.getElem?_eq_some_iff.1 he
    exact ⟨j, by omega, rfl⟩
  refine ⟨first _ 0 _ _ _ rfl (by decide) ?_, first _ 1 _ _ _ rfl (by decide) ?_, first _ 2 _ _ _ rfl (by decide) ?_,
    first _ 3 _ _ _ rfl (by decide) ?_, first _ 4 _ _ _ rfl (by decide) ?_, first _ 5 _ _ _ rfl (by decide) ?_, ?_, ?_, by decide⟩
  all_goals
    intro e he
    simp only [State.faultConditions, List.take_succ_cons, List.take_zero, List.mem_cons, List.not_mem_nil, or_false] at he
  all_goals first
    | exact he.elim
    | (subst he; decide)
    | (rcases he with rfl | rfl <;> decide)
    | (rcases he with rfl | rfl | rfl <;> decide)
    | (rcases he with rfl | rfl | rfl | rfl <;> decide)
    | (rcases he with rfl | rfl | rfl | rfl | rfl <;> decide)
    | (rcases he with rfl | rfl | rfl | rfl | rfl | rfl <;> decide)

theorem witness_FaultsArePrecise : (at_ 0 [0x82, 8, 1]).Running ∧ summary (at_ 0 [0x82, 8, 1]) = some (.faulted, 0, 2, 0, 8) := by decide

theorem witness_TerminalStatesStay : State.Ended { State.reset with status := .halted } ∧
    State.Ended { State.reset with status := .faulted } ∧ State.reset.rst = false ∧ State.reset.hostWrite = none := by decide

theorem witness_memory_statements : Memory.wf [(0, 1), (255, 2)] = true ∧ Memory.wf [] = true ∧ Memory.wf [(1, 0)] = false ∧
    Memory.wf [(256, 1)] = false ∧ Memory.write [(0, 1), (255, 2)] 0 0 = [(255, 2)] ∧ (255 : Nat) < 256 := by decide

/-- Two canonical memories, built in different orders, that read alike. -/
theorem witness_CanonicalMemoriesAreExtensional :
    Memory.wf (storeBytes [1, 2] 254 []) = true ∧ Memory.wf (Memory.write (Memory.write [] 255 2) 254 1) = true ∧
    ∀ a, a < 256 → Memory.read (storeBytes [1, 2] 254 []) a = Memory.read (Memory.write (Memory.write [] 255 2) 254 1) a :=
  ⟨by decide, by decide, fun _ _ => rfl⟩

theorem witness_host_statements : State.powerOn.rst = true ∧ Memory.wf State.powerOn.mem = true ∧ State.reset.rst = false ∧
    State.powerOn.hostWrite = none := by decide

theorem witness_BootLoadsProgramFile : Memory.wf State.powerOn.mem = true ∧
    parseLines 0 ["00000001".toList] = .ok [0x01] ∧ ([0x01] : List Byte).length ≤ 256 := ⟨rfl, rfl, by decide⟩

/-- A file of 257 lines, for the statement's other clause. -/
theorem witness_BootRefusesLongFile : ∃ bytes, parseLines 0 (List.replicate 257 "00000001".toList) = .ok bytes ∧ 256 < bytes.length := by
  have h : ∀ n k, parseLines k (List.replicate n "00000001".toList) = .ok (List.replicate n 0x01) := by
    intro n
    induction n with
    | zero => exact fun _ => rfl
    | succ n ih =>
      intro k
      have hl : parseLine "00000001".toList = .byte 0x01 := by decide
      simp only [List.replicate_succ, parseLines, hl, ih (k + 1)]
  exact ⟨_, h 257 0, by rw [List.length_replicate]; decide⟩

theorem witness_NextInstructionSeesWrites : (at_ 251 [0x82, 7, 255, 0x47, 7]).Running ∧
    (at_ 251 [0x82, 7, 255, 0x47, 7]).HoldsAt 251 (encode (.ldi 7 255) ++ encode (.prn 7)) ∧
    (at_ 0 [0x82, 1, 2, 0x54, 1]).HoldsAt 0 (encode (.ldi 1 2) ++ encode (.jmp 1)) ∧
    (at_ 0 [0xA7, 0, 1, 0x55, 2]).HoldsAt 0 (encode (.cmp 0 1) ++ encode (.jeq 2)) := by decide

theorem witness_LegacyNopWalksUnknownBytes : State.Running { at_ 0 [0xC2, 0x00] with config := ⟨.legacyNop⟩ } ∧
    (at_ 0 [0xC2, 0x00]).pc.toNat + 2 ≤ 256 ∧ ∀ k, k < 2 → (at_ 0 [0xC2, 0x00]).byteAt k ∉ opcodeBytes := by decide

theorem witness_RunEndIsUnique : RunEndsIn (at_ 0 [0x01]) 1 { at_ 0 [0x01] with status := .halted } ∧
    RunEndsIn (at_ 0 [0x01]) 2 { at_ 0 [0x01] with status := .halted } :=
  ⟨⟨rfl, by decide, by decide, by decide⟩, ⟨rfl, by decide, by decide, by decide⟩⟩

end Sys2Proof.Tests
end

section
/-! A program line read back (R8, R79). Reading digits most significant first keeps one invariant: with `n` digits still to come, the value
read so far is the byte without its low `n` bits. -/

namespace Sys2Proof.Machine

/-- The character of one bit. -/
def bitChar (x : Bool) : Char := if x then '1' else '0'

/-- The characters of the low `n` bits of a byte, bit `n - 1` first: what is left of `byteLine b` when `8 - n` characters are read. -/
def lowBitChars (b : Byte) : Nat → List Char
  | 0 => []
  | n + 1 => bitChar (b.getLsbD n) :: lowBitChars b n

theorem byteLine_eq_lowBitChars (b : Byte) : byteLine b = lowBitChars b 8 := rfl

@[simp] theorem binaryDigit_bitChar (x : Bool) : binaryDigit (bitChar x) = some x.toNat := by
  cases x <;> rfl

theorem eq_zero_or_one_of_binaryDigit {c : Char} {d : Nat} (h : binaryDigit c = some d) : c = '0' ∨ c = '1' := by
  unfold binaryDigit at h
  split at h
  · exact .inl ‹_›
  · split at h
    · exact .inr ‹_›
    · cases h

/-- A step of the reader: the bits above `n`, shifted, with bit `n` as the next digit, are the bits from `n` up. -/
theorem two_mul_shiftRight_succ_add_bit (b : Byte) (n : Nat) :
    2 * (b.toNat >>> (n + 1)) + (b.getLsbD n).toNat = b.toNat >>> n := by
  have hbit : (b.getLsbD n).toNat = b.toNat >>> n % 2 := by
    rw [← BitVec.testBit_toNat, Nat.toNat_testBit, Nat.shiftRight_eq_div_pow]
  rw [Nat.shiftRight_succ, hbit]
  omega

theorem binaryPrefix_lowBitChars (b : Byte) (rest : List Char) (n : Nat) :
    binaryPrefix n (b.toNat >>> n) (lowBitChars b n ++ rest) = some b.toNat := by
  induction n with
  | zero => rfl
  | succ n ih =>
    simp only [lowBitChars, List.cons_append, binaryPrefix, binaryDigit_bitChar, two_mul_shiftRight_succ_add_bit]
    exact ih

theorem binaryPrefix_byteLine (b : Byte) (rest : List Char) : binaryPrefix 8 0 (byteLine b ++ rest) = some b.toNat := by
  have hzero : b.toNat >>> 8 = 0 := by
    rw [Nat.shiftRight_eq_div_pow]
    exact Nat.div_eq_of_lt b.isLt
  rw [byteLine_eq_lowBitChars, ← hzero]
  exact binaryPrefix_lowBitChars b rest 8

/-- A binary numeral of at least one digit starts with a digit. -/
theorem head_of_binaryPrefix {n acc v : Nat} {line : List Char} (h : binaryPrefix (n + 1) acc line = some v) :
    ∃ c rest, line = c :: rest ∧ (c = '0' ∨ c = '1') := by
  cases line with
  | nil => cases h
  | cons c rest =>
    cases hd : binaryDigit c with
    | none => simp [binaryPrefix, hd] at h
    | some d => exact ⟨c, rest, rfl, eq_zero_or_one_of_binaryDigit hd⟩

/-- A line that begins with a numeral is neither blank nor a comment, so it is read as a byte. -/
theorem parseLine_of_binaryPrefix {line : List Char} {v : Nat} (h : binaryPrefix 8 0 line = some v) :
    parseLine line = .byte (BitVec.ofNat 8 v) := by
  obtain ⟨c, rest, rfl, hc⟩ := head_of_binaryPrefix h
  have hblank : isBlankChar c = false := by obtain rfl | rfl := hc <;> decide
  have hcomment : c ≠ '#' := by obtain rfl | rfl := hc <;> decide
  simp [parseLine, hblank, hcomment, h]

theorem parseLine_byteLine (b : Byte) (rest : List Char) : parseLine (byteLine b ++ rest) = .byte b := by
  rw [parseLine_of_binaryPrefix (binaryPrefix_byteLine b rest), BitVec.ofNat_toNat, BitVec.setWidth_eq]

theorem parseLine_comment (rest : List Char) : parseLine ('#' :: rest) = .skipped := by
  simp [parseLine]

/-- Settles O48: the reader's invariant gives the byte of a line of 8 characters, and the two other lines are skipped. -/
theorem programLinesReadBack : Obligations.ProgramLinesReadBack :=
  ⟨parseLine_byteLine, parseLine_comment, rfl⟩

end Sys2Proof.Machine
end

section
/-! What a step of the machine keeps: canonical memory, the frame of a step with `rst` 0, and the invariant of reachable states (R22, R28,
R30, R31, R46, R145, R170). Each is one motive of `step_running_elim`, the case list of a running core's step. -/

namespace Sys2Proof.Machine

variable {s t : State}

/-- `step_running_cases` as an elimination rule: what holds of the state each case leads to holds of every next state of a running core. -/
theorem step_running_elim {motive : State → Prop} (hrun : s.Running) (hstep : step s = .next t)
    (raise : ∀ cause info, FaultOrigin s cause info → motive (s.raise cause info))
    (halt : s.byteAt 0 = 0x01 → motive { s with status := .halted })
    (writeReg : ∀ (j : Fin 8) (v : Byte), s.byteAt 0 = 0x82 ∨ s.byteAt 0 = 0xA2 → (s.byteAt 1).toNat = j.val →
      s.pc.toNat + 2 < 256 → motive ((s.writeReg j v).advance 3))
    (writeFl : ∀ u v, s.byteAt 0 = 0xA7 → s.pc.toNat + 2 < 256 → motive ((s.writeFl (compareFlags u v)).advance 3))
    (output : ∀ v, s.byteAt 0 = 0x47 → s.pc.toNat + 1 < 256 → motive ((s.output v).advance 2))
    (jump : ∀ v : Byte, s.byteAt 0 = 0x54 ∨ takenWith (s.byteAt 0) s.fl → motive (s.setPc (zext9 v)))
    (pass : s.byteAt 0 = 0x55 ∨ s.byteAt 0 = 0x56 → s.pc.toNat + 1 < 256 → motive (s.advance 2))
    (skip : s.pc.toNat < 256 → opcodeOfByte (s.byteAt 0) = none → motive (s.advance 1)) : motive t := by
  rcases step_running_cases hrun with ⟨cause, info, ho, e⟩ | ⟨hb, -, e⟩ | ⟨j, v, hb, hj, hp, e⟩ | ⟨u, v, hb, hp, e⟩ |
    ⟨h8, hb, hp, e⟩ | ⟨h8, hb, -, e⟩ | ⟨hb, -, hp, e⟩ | ⟨hp, hb, -, e⟩ <;>
    obtain rfl := Host.Outcome.next.inj (hstep.symm.trans e)
  · exact raise cause info ho
  · exact halt hb
  · exact writeReg j v hb hj hp
  · exact writeFl u v hb hp
  · exact output _ hb hp
  · exact jump _ hb
  · exact pass hb hp
  · exact skip hp hb

/-- With `rst` 0 a step that answers is a running core's, or changes nothing. -/
theorem step_next_of_rst_false (hrst : s.rst = false) (hstep : step s = .next t) :
    s.hostWrite = none ∧ (s.Running ∨ t = s) := by
  rcases step_situations s with ⟨h, -⟩ | ⟨_, -, -, e⟩ | ⟨hrun, -⟩ | ⟨-, hw, -, e⟩
  · simp [hrst] at h
  · cases hstep.symm.trans e
  · have ⟨_, hw, _⟩ := hrun
    exact ⟨hw, .inl hrun⟩
  · exact ⟨hw, .inr (Host.Outcome.next.inj (hstep.symm.trans e))⟩

/-! ### The frame of a running core's step -/

theorem getElem_set_fin_ne {x : Vector Byte 8} {i j : Fin 8} (v : Byte) (h : i.val ≠ j.val) : (x.set i.val v)[j] = x[j] := by
  simp only [Fin.getElem_fin, Vector.getElem_set_ne _ _ h]

theorem step_running_keeps_environment (hrun : s.Running) (hstep : step s = .next t) :
    t.mem = s.mem ∧ t.rst = s.rst ∧ t.hostWrite = s.hostWrite ∧ t.config = s.config :=
  step_running_elim (motive := fun u => u.mem = s.mem ∧ u.rst = s.rst ∧ u.hostWrite = s.hostWrite ∧ u.config = s.config) hrun hstep
    (raise := fun _ _ _ => ⟨rfl, rfl, rfl, rfl⟩)
    (halt := fun _ => ⟨rfl, rfl, rfl, rfl⟩)
    (writeReg := fun _ _ _ _ _ => ⟨rfl, rfl, rfl, rfl⟩)
    (writeFl := fun _ _ _ _ => ⟨rfl, rfl, rfl, rfl⟩)
    (output := fun _ _ _ => ⟨rfl, rfl, rfl, rfl⟩)
    (jump := fun _ _ => ⟨rfl, rfl, rfl, rfl⟩)
    (pass := fun _ _ => ⟨rfl, rfl, rfl, rfl⟩)
    (skip := fun _ _ => ⟨rfl, rfl, rfl, rfl⟩)

/-- The registers are as before, or LDI or MUL has written the one operand0 names. -/
theorem step_running_registers (hrun : s.Running) (hstep : step s = .next t) :
    t.x = s.x ∨ (s.byteAt 0 = 0x82 ∨ s.byteAt 0 = 0xA2) ∧
      ∃ (j : Fin 8) (v : Byte), (s.byteAt 1).toNat = j.val ∧ t.x = s.x.set j.val v :=
  step_running_elim (motive := fun u => u.x = s.x ∨ (s.byteAt 0 = 0x82 ∨ s.byteAt 0 = 0xA2) ∧
      ∃ (j : Fin 8) (v : Byte), (s.byteAt 1).toNat = j.val ∧ u.x = s.x.set j.val v) hrun hstep
    (raise := fun _ _ _ => .inl rfl)
    (halt := fun _ => .inl rfl)
    (writeReg := fun j v hb hj _ => .inr ⟨hb, j, v, hj, rfl⟩)
    (writeFl := fun _ _ _ _ => .inl rfl)
    (output := fun _ _ _ => .inl rfl)
    (jump := fun _ _ => .inl rfl)
    (pass := fun _ _ => .inl rfl)
    (skip := fun _ _ => .inl rfl)

/-- `FL` holds the result of a CMP, or is as before; over the byte of CMP the latter is only in a fault. -/
theorem step_running_fl (hrun : s.Running) (hstep : step s = .next t) :
    (s.byteAt 0 = 0xA7 ∧ ∃ u v, t.fl = compareFlags u v) ∨ (t.fl = s.fl ∧ (t.status = .faulted ∨ s.byteAt 0 ≠ 0xA7)) := by
  refine step_running_elim (motive := fun u => (s.byteAt 0 = 0xA7 ∧ ∃ a b, u.fl = compareFlags a b) ∨
    (u.fl = s.fl ∧ (u.status = .faulted ∨ s.byteAt 0 ≠ 0xA7))) hrun hstep
    (raise := fun _ _ _ => .inr ⟨rfl, .inl rfl⟩)
    (halt := fun hb => .inr ⟨rfl, .inr fun hcmp => ?_⟩)
    (writeReg := fun _ _ hb _ _ => .inr ⟨rfl, .inr fun hcmp => ?_⟩)
    (writeFl := fun u v hb _ => .inl ⟨hb, u, v, rfl⟩)
    (output := fun _ hb _ => .inr ⟨rfl, .inr fun hcmp => ?_⟩)
    (jump := fun _ hb => .inr ⟨rfl, .inr fun hcmp => ?_⟩)
    (pass := fun hb _ => .inr ⟨rfl, .inr fun hcmp => ?_⟩)
    (skip := fun _ hb => .inr ⟨rfl, .inr fun hcmp => opcodeOfByte_eq_none.1 hb .cmp hcmp⟩)
  all_goals simp [hcmp, takenWith] at hb

/-! ### The invariant -/

theorem flLegal_compareFlags (a b : Byte) : FlLegal (compareFlags a b) := by
  rcases compareFlags_cases a b with ⟨-, e⟩ | ⟨-, e⟩ | ⟨-, e⟩ <;> simp [FlLegal, e]

/-- A state with no fault recorded meets the invariant when its memory, `pc` and `FL` are legal and it holds the reset values under `rst`. -/
theorem State.Inv.of_fault_clear (mem_wf : Memory.wf s.mem = true) (pc_le : s.pc.toNat ≤ 256) (fl_legal : FlLegal s.fl)
    (hsafe : s.status ≠ .faulted) (hfault : s.fault = FaultRecord.clear) (held : s.rst = true → s.HeldInReset) : s.Inv where
  mem_wf := mem_wf
  pc_le := pc_le
  fl_legal := fl_legal
  faulted_iff := by simp [hsafe, hfault, FaultRecord.clear]
  fpc_eq := by simp [hfault, FaultRecord.clear]
  info_legal := by simp [State.FaultInfoLegal, hfault, FaultRecord.clear]
  held := held

/-- Under the invariant a state that is not FAULTED has the empty fault record. -/
theorem State.Inv.fault_eq_clear (hinv : s.Inv) (hsafe : s.status ≠ .faulted) : s.fault = FaultRecord.clear := by
  have hcause : s.fault.cause = none := Classical.not_not.1 (mt hinv.faulted_iff.2 hsafe)
  have hfpc : s.fault.fpc = 0 := by rw [hinv.fpc_eq, if_pos hcause]
  have hinfo : s.fault.info = 0 := by simpa [State.FaultInfoLegal, hcause] using hinv.info_legal
  calc s.fault = ⟨s.fault.cause, s.fault.fpc, s.fault.info⟩ := rfl
    _ = FaultRecord.clear := by rw [hcause, hfpc, hinfo, FaultRecord.clear]

/-- A fault of the running core's step leaves a record that fits its cause. -/
theorem FaultOrigin.faultInfoLegal {cause : FaultCause} {info : PcWord} (hinv : s.Inv) (ho : FaultOrigin s cause info) :
    (s.raise cause info).FaultInfoLegal := by
  cases cause with
  | memRange =>
    obtain ⟨hp, rfl⟩ | ⟨hp, -, rfl⟩ := ho
    · have hpc : s.pc.toNat = 256 := Nat.le_antisymm hinv.pc_le hp
      exact ⟨BitVec.eq_of_toNat_eq hpc, by simp [hpc]⟩
    · exact ⟨rfl, hp⟩
  | regRange =>
    obtain ⟨b, hb, rfl⟩ := ho
    simpa [State.FaultInfoLegal] using ⟨hb, b.isLt⟩
  | unknownOpcode =>
    obtain ⟨-, hop, hpolicy, rfl⟩ := ho
    exact ⟨hpolicy, rfl, hop⟩
  | unsupportedAlu => exact ho

theorem State.Inv.raise {cause : FaultCause} {info : PcWord} (hinv : s.Inv) (hrst : s.rst = false) (ho : FaultOrigin s cause info) :
    (s.raise cause info).Inv where
  mem_wf := hinv.mem_wf
  pc_le := hinv.pc_le
  fl_legal := hinv.fl_legal
  faulted_iff := by simp
  fpc_eq := by simp
  info_legal := ho.faultInfoLegal hinv
  held := by simp [hrst]

/-- The sequential advance of an instruction that fits below 256 keeps `pc` at most 256 (R28). -/
theorem advance_pc_le {n : PcWord} (h : s.pc.toNat + n.toNat ≤ 256) : (s.advance n).pc.toNat ≤ 256 := by
  rw [State.advance_pc, BitVec.toNat_add_of_lt (by omega)]
  exact h

theorem zext9_toNat_le (v : Byte) : (zext9 v).toNat ≤ 256 := by
  rw [zext9_toNat]
  exact Nat.le_of_lt v.isLt

theorem step_running_keeps_inv (hinv : s.Inv) (hrun : s.Running) (hstep : step s = .next t) : t.Inv := by
  have ⟨hrst, _, hstatus⟩ := hrun
  have hsafe : s.status ≠ .faulted := by simp [hstatus]
  have hclear : s.fault = FaultRecord.clear := hinv.fault_eq_clear hsafe
  have hheld (u : State) : s.rst = true → u.HeldInReset := by simp [hrst]
  exact step_running_elim (motive := State.Inv) hrun hstep
    (raise := fun _ _ ho => hinv.raise hrst ho)
    (halt := fun _ => .of_fault_clear hinv.mem_wf hinv.pc_le hinv.fl_legal (by simp) hclear (hheld _))
    (writeReg := fun _ _ _ _ hp => .of_fault_clear hinv.mem_wf (advance_pc_le hp) hinv.fl_legal hsafe hclear (hheld _))
    (writeFl := fun u v _ hp => .of_fault_clear hinv.mem_wf (advance_pc_le hp) (flLegal_compareFlags u v) hsafe hclear (hheld _))
    (output := fun _ _ hp => .of_fault_clear hinv.mem_wf (advance_pc_le hp) hinv.fl_legal hsafe hclear (hheld _))
    (jump := fun v _ => .of_fault_clear hinv.mem_wf (zext9_toNat_le v) hinv.fl_legal hsafe hclear (hheld _))
    (pass := fun _ hp => .of_fault_clear hinv.mem_wf (advance_pc_le hp) hinv.fl_legal hsafe hclear (hheld _))
    (skip := fun hp _ => .of_fault_clear hinv.mem_wf (advance_pc_le hp) hinv.fl_legal hsafe hclear (hheld _))

theorem holdInReset_heldInReset (s : State) : s.holdInReset.HeldInReset := by
  unfold State.holdInReset
  split <;> exact ⟨rfl, rfl, rfl, rfl, rfl, rfl⟩

theorem holdInReset_mem_wf (h : Memory.wf s.mem = true) : Memory.wf s.holdInReset.mem = true := by
  unfold State.holdInReset
  split
  · exact h
  · next w _ => exact Memory.wf_write h w.addr.isLt

/-- A core held at the reset values meets the invariant, whatever legal memory the host has given it. -/
theorem State.HeldInReset.inv (h : s.HeldInReset) (mem_wf : Memory.wf s.mem = true) : s.Inv := by
  have ⟨_, hpc, hfl, hstatus, hfault, _⟩ := h
  exact .of_fault_clear mem_wf (by simp [hpc]) (.inl hfl) (by simp [hstatus]) hfault fun _ => h

/-- Settles O30: under `rst` the core holds the reset values; a running core's step keeps the invariant in each of its cases; an ended
core's step changes nothing. -/
theorem stepKeepsInvariant : Obligations.StepKeepsInvariant := by
  intro s t hinv hstep
  cases hrst : s.rst with
  | true =>
    obtain rfl := Host.Outcome.next.inj ((step_of_rst hrst).symm.trans hstep)
    exact (holdInReset_heldInReset s).inv (holdInReset_mem_wf hinv.mem_wf)
  | false =>
    obtain ⟨-, hrun | rfl⟩ := step_next_of_rst_false hrst hstep
    · exact step_running_keeps_inv hinv hrun hstep
    · exact hinv

/-- Settles O32: by the two outcomes `step_running_fl` leaves for `FL`. -/
theorem onlyCmpWritesFl : Obligations.OnlyCmpWritesFl := by
  intro s t hrst hstep
  constructor
  · intro hne
    obtain ⟨-, hrun | rfl⟩ := step_next_of_rst_false hrst hstep
    · obtain ⟨hb, -⟩ | ⟨hfl, -⟩ := step_running_fl hrun hstep
      · exact ⟨hrun, hb⟩
      · exact absurd hfl hne
    · exact absurd rfl hne
  · intro hrun _ hb hsafe
    obtain ⟨-, u, v, hfl⟩ | ⟨-, hfault | hb'⟩ := step_running_fl hrun hstep
    · rw [hfl]
      rcases compareFlags_cases u v with ⟨-, e⟩ | ⟨-, e⟩ | ⟨-, e⟩
      · exact .inr (.inr e)
      · exact .inl e
      · exact .inr (.inl e)
    · exact absurd hfault hsafe
    · exact absurd hb hb'

/-- Settles O33: the one register `step_running_registers` lets a step write is the one that differs. -/
theorem onlyLdiAndMulWriteRegisters : Obligations.OnlyLdiAndMulWriteRegisters := by
  intro s t hrst hstep i hne
  obtain ⟨-, hrun | rfl⟩ := step_next_of_rst_false hrst hstep
  · obtain hx | ⟨hb, j, v, hj, hx⟩ := step_running_registers hrun hstep
    · exact absurd (by rw [hx]) hne
    · refine ⟨hrun, hb, hj.trans (Classical.byContradiction fun hji => hne ?_)⟩
      rw [hx]
      exact getElem_set_fin_ne v hji
  · exact absurd rfl hne

/-- Settles O34: a running core's step keeps its environment, and any other step with `rst` 0 changes nothing. -/
theorem coreNeverWritesMemory : Obligations.CoreNeverWritesMemory := by
  intro s t hrst hstep
  obtain ⟨hwrite, hrun | rfl⟩ := step_next_of_rst_false hrst hstep
  · obtain ⟨hmem, hr, hw, hconfig⟩ := step_running_keeps_environment hrun hstep
    exact ⟨hmem, hr.trans hrst, hw.trans hwrite, hconfig⟩
  · exact ⟨rfl, hrst, hwrite, rfl⟩

end Sys2Proof.Machine
end

section
/-! Packed instructions (R29, R65): an instruction is decoded from its own bytes only, so a packed sequence is read back in one way. -/

namespace Sys2Proof

theorem decodeR_eq_instr {readByte : Nat → Option Byte} {build : Byte → Instr} {i : Instr} (h : decodeR readByte build = .instr i) :
    ∃ a, readByte 1 = some a ∧ i = build a := by
  cases h1 : readByte 1 with
  | none => simp [decodeR, h1] at h
  | some a => exact ⟨a, rfl, by simpa [decodeR, h1] using h.symm⟩

theorem decodeRR_eq_instr {readByte : Nat → Option Byte} {build : Byte → Byte → Instr} {i : Instr}
    (h : decodeRR readByte build = .instr i) : ∃ a b, readByte 1 = some a ∧ readByte 2 = some b ∧ i = build a b := by
  cases h1 : readByte 1 with
  | none => simp [decodeRR, h1] at h
  | some a =>
    cases h2 : readByte 2 with
    | none => simp [decodeRR, h1, h2] at h
    | some b => exact ⟨a, b, rfl, rfl, by simpa [decodeRR, h1, h2] using h.symm⟩

/-- The converse of `decodeFrom_of_encode`: the reader holds the bytes of the instruction decoded from it. -/
theorem encode_of_decodeFrom {f : Nat → Option Byte} {i : Instr} (h : decodeFrom f = .instr i) :
    ∀ k (hk : k < (encode i).length), f k = some (encode i)[k] := by
  unfold decodeFrom at h
  cases h0 : f 0 with
  | none => simp [h0] at h
  | some op =>
    cases ho : opcodeOfByte op with
    | none => simp [h0, ho] at h
    | some o =>
      obtain rfl := opcodeOfByte_eq_some.1 ho
      simp only [h0, ho] at h
      cases o with
      | hlt =>
        obtain rfl := Decoded.instr.inj h
        exact fun | 0, _ => h0
      | prn | jmp | jeq | jne =>
        obtain ⟨a, h1, rfl⟩ := decodeR_eq_instr h
        exact fun | 0, _ => h0 | 1, _ => h1
      | ldi | mul | cmp =>
        obtain ⟨a, b, h1, h2, rfl⟩ := decodeRR_eq_instr h
        exact fun | 0, _ => h0 | 1, _ => h1 | 2, _ => h2

/-- A list of bytes decodes to an instruction exactly when it begins with the instruction's encoding. -/
theorem decode_eq_instr_iff {bytes : List Byte} {i : Instr} : decode bytes = .instr i ↔ encode i <+: bytes := by
  rw [List.prefix_iff_getElem?]
  exact ⟨encode_of_decodeFrom, decodeFrom_of_encode i⟩

@[simp] theorem length_encode (i : Instr) : (encode i).length = i.length := by cases i <;> rfl

theorem encode_ne_nil (i : Instr) : encode i ≠ [] := by cases i <;> exact List.cons_ne_nil _ _

/-- Reading a sequence starts with the instruction whose encoding the bytes begin with. -/
theorem decodeAll_encode_append (fuel : Nat) (i : Instr) (bytes : List Byte) :
    decodeAll (fuel + 1) (encode i ++ bytes) = (decodeAll fuel bytes).map (i :: ·) := by
  have hdecode : decode (encode i ++ bytes) = .instr i := decode_eq_instr_iff.2 (List.prefix_append _ _)
  have hdrop : (encode i ++ bytes).drop i.length = bytes := List.drop_left' (length_encode i)
  cases h : encode i ++ bytes with
  | nil => exact absurd (List.append_eq_nil_iff.1 h).1 (encode_ne_nil i)
  | cons b rest =>
    rw [h] at hdecode hdrop
    simp only [decodeAll, hdecode, hdrop]

theorem decodeAll_encodeAll (is : List Instr) : decodeAll is.length (encodeAll is) = some is := by
  induction is with
  | nil => rfl
  | cons i is ih => rw [encodeAll, List.length_cons, decodeAll_encode_append, ih, Option.map_some]

theorem encodeAll_of_decodeAll {fuel : Nat} {bytes : List Byte} {is : List Instr} (h : decodeAll fuel bytes = some is) :
    encodeAll is = bytes := by
  induction fuel generalizing bytes is with
  | zero =>
    cases bytes with
    | nil => cases h; rfl
    | cons b bytes => cases h
  | succ fuel ih =>
    cases bytes with
    | nil => cases h; rfl
    | cons b bytes =>
      cases hd : decode (b :: bytes) with
      | unknownOpcode op => simp [decodeAll, hd] at h
      | missingByte offset => simp [decodeAll, hd] at h
      | instr i =>
        obtain ⟨rest, hrest⟩ := decode_eq_instr_iff.1 hd
        rw [← hrest, decodeAll_encode_append, Option.map_eq_some_iff] at h
        obtain ⟨tail, htail, rfl⟩ := h
        rw [encodeAll, ih htail, hrest]

/-- Settles O5, by induction on the sequence and on the fuel. -/
theorem packedInstructionsDecodeUniquely : Obligations.PackedInstructionsDecodeUniquely :=
  ⟨decodeAll_encodeAll, fun _ _ _ => encodeAll_of_decodeAll⟩

end Sys2Proof
end

section
/-! The read port (R40, R53): the addresses a step presents are those of the opcode's bytes, cut at 256. -/

namespace Sys2Proof.Machine

variable {s : State}

/-- The addresses below a bound, of a run of addresses that crosses it. -/
theorem filter_range'_of_cross {a n bound : Nat} (hlo : a ≤ bound) (hhi : bound ≤ a + n) :
    (List.range' a n).filter (· < bound) = List.range' a (bound - a) := by
  obtain ⟨k, rfl⟩ : ∃ k, n = (bound - a) + k := ⟨n - (bound - a), by omega⟩
  have hbelow : ∀ x ∈ List.range' a (bound - a), decide (x < bound) = true := by
    simp only [List.mem_range'_1, decide_eq_true_eq]
    omega
  have habove : ∀ x ∈ List.range' (a + (bound - a)) k, ¬ decide (x < bound) = true := by
    simp only [List.mem_range'_1, decide_eq_true_eq]
    omega
  rw [← List.range'_append_1, List.filter_append, List.filter_eq_self.2 hbelow, List.filter_eq_nil_iff.2 habove, List.append_nil]

theorem length_withOperands (o : Opcode) (a b : Byte) : (o.withOperands a b).length = o.format.operands + 1 := by
  cases o <;> rfl

theorem readAddresses_past_memory (hrun : s.Running) (h : 256 ≤ s.pc.toNat) : s.readAddresses = [] := by
  simp [State.readAddresses, executes_iff.2 hrun, fetch_past_memory h]

theorem readAddresses_unknown (hrun : s.Running) (h : s.pc.toNat < 256) (ho : opcodeOfByte (s.byteAt 0) = none) :
    s.readAddresses = [s.pc.toNat] := by
  simp only [State.readAddresses, executes_iff.2 hrun, fetch_unknown h ho, if_true]

/-- The step over a known opcode presents the addresses of the opcode and of all its operand bytes that exist. -/
theorem readAddresses_opcode {o : Opcode} (hrun : s.Running) (h : s.pc.toNat < 256) (ho : s.byteAt 0 = o.byte) :
    s.readAddresses = (List.range' s.pc.toNat (o.format.operands + 1)).filter (· < 256) := by
  simp only [State.readAddresses, executes_iff.2 hrun, fetch_opcode h ho, if_true]
  by_cases hfit : s.pc.toNat + o.format.operands < 256
  · rw [if_pos hfit, List.filter_eq_self.2]
    · exact congrArg (List.range' _) (length_withOperands o _ _)
    · simp only [List.mem_range'_1, decide_eq_true_eq]
      omega
  · rw [if_neg hfit, filter_range'_of_cross (by omega) (by omega)]

/-- Settles O10: by the opcode's number of operand bytes, the byte being unknown or one of the eight. -/
theorem readsInAddressOrder : Obligations.ReadsInAddressOrder := by
  intro s hrun p
  refine ⟨readAddresses_past_memory hrun, fun hp hb => ?_, fun hp hb => ?_, fun hp hb => ?_⟩
  · cases ho : opcodeOfByte (s.byteAt 0) with
    | none => exact readAddresses_unknown hrun hp ho
    | some o =>
      have hbyte : s.byteAt 0 = o.byte := opcodeOfByte_eq_some.1 ho
      obtain ⟨htwo, hthree⟩ : s.byteAt 0 ∉ twoByteOpcodes ∧ s.byteAt 0 ∉ threeByteOpcodes := by
        simpa only [List.mem_append, not_or] using hb
      have hone : o.format.operands ≠ 1 := fun h => htwo (mem_twoByteOpcodes.2 ⟨o, hbyte, h⟩)
      have htwo' : o.format.operands ≠ 2 := fun h => hthree (mem_threeByteOpcodes.2 ⟨o, hbyte, h⟩)
      have hzero : o.format.operands = 0 := by have := o.operands_le; omega
      rw [readAddresses_opcode hrun hp hbyte, hzero]
      exact List.filter_eq_self.2 (by simpa using hp)
  · obtain ⟨o, hbyte, hone⟩ := mem_twoByteOpcodes.1 hb
    rw [readAddresses_opcode hrun hp hbyte, hone]
    rfl
  · obtain ⟨o, hbyte, htwo⟩ := mem_threeByteOpcodes.1 hb
    rw [readAddresses_opcode hrun hp hbyte, htwo]
    rfl

end Sys2Proof.Machine
end

section
/-! What a meaning leaves unchanged, the codes on the ports and the reset values. -/

namespace Sys2Proof.Machine

variable {s : State}

/-- Settles O26: in each of the outcomes of `exec_cases` the update names the fields it writes, and every other field is as before. -/
theorem execFrame : Obligations.ExecFrame := by
  intro i s t h
  have hhlt : i = .hlt → t.pc = s.pc ∧ t.status = .halted := by
    rintro rfl
    obtain rfl := Host.Outcome.next.inj (execHlt_eq.symm.trans h)
    exact ⟨rfl, rfl⟩
  rcases exec_cases i s with ⟨rfl, e⟩ | ⟨_, -, -, e⟩ | ⟨j, v, hi, e⟩ | ⟨a, b, u, v, rfl, e⟩ | ⟨reg, _, rfl, e⟩ |
    ⟨_, -, e⟩ | ⟨-, e⟩ <;>
    obtain rfl := Host.Outcome.next.inj (h.symm.trans e) <;>
    refine ⟨fun _ => rfl, rfl, rfl, rfl, rfl, ?_⟩
  · exact ⟨fun _ _ _ => rfl, fun _ => rfl, fun _ => rfl, fun hne => absurd rfl hne, hhlt, fun _ _ => rfl⟩
  · exact ⟨fun _ _ _ => rfl, fun _ => rfl, fun _ => rfl, fun _ => .inr rfl, hhlt, fun _ hsafe => absurd rfl hsafe⟩
  · refine ⟨fun k hldi hmul => getElem_set_fin_ne v ?_, fun _ => rfl, fun _ => rfl, fun _ => .inl rfl, hhlt, fun _ _ => rfl⟩
    obtain ⟨reg, imm, rfl, hj⟩ | ⟨regA, regB, rfl, hj⟩ := hi
    · exact hj ▸ hldi reg imm rfl
    · exact hj ▸ hmul regA regB rfl
  · exact ⟨fun _ _ _ => rfl, fun hne => absurd rfl (hne a b), fun _ => rfl, fun _ => .inl rfl, hhlt, fun _ _ => rfl⟩
  · exact ⟨fun _ _ _ => rfl, fun _ => rfl, fun hne => absurd rfl (hne reg), fun _ => .inl rfl, hhlt, fun _ _ => rfl⟩
  · exact ⟨fun _ _ _ => rfl, fun _ => rfl, fun _ => rfl, fun _ => .inl rfl, hhlt, fun _ _ => rfl⟩
  · exact ⟨fun _ _ _ => rfl, fun _ => rfl, fun _ => rfl, fun _ => .inl rfl, hhlt, fun _ _ => rfl⟩

theorem status_iff_statusPort (s : State) :
    (s.status = .running ↔ s.statusPort = 0b00) ∧ (s.status = .halted ↔ s.statusPort = 0b01) ∧
    (s.status = .faulted ↔ s.statusPort = 0b10) := by
  unfold State.statusPort
  cases s.status <;> decide

theorem cause_iff_faultCausePort (s : State) :
    (s.fault.cause = none ↔ s.faultCausePort = 0) ∧ (s.fault.cause = some .memRange ↔ s.faultCausePort = 1) ∧
    (s.fault.cause = some .regRange ↔ s.faultCausePort = 2) ∧ (s.fault.cause = some .unknownOpcode ↔ s.faultCausePort = 3) ∧
    (s.fault.cause = some .unsupportedAlu ↔ s.faultCausePort = 4) := by
  unfold State.faultCausePort
  cases s.fault.cause with
  | none => decide
  | some c => cases c <;> decide

/-- Settles O41, by the three values of `status` and the five of the cause. -/
theorem portCodes : Obligations.PortCodes := by
  intro s
  obtain ⟨hrunning, hhalted, hfaulted⟩ := status_iff_statusPort s
  exact ⟨hrunning, hhalted, hfaulted, cause_iff_faultCausePort s⟩

/-- Settles O46: `State.reset` holds these values, power-on memory lists no cell, and `assertRst` then `releaseRst` change nothing in it. -/
theorem resetValues : Obligations.ResetValues :=
  ⟨fun i => Vector.getElem_replicate i.isLt, rfl, rfl, Memory.read_nil, rfl⟩

end Sys2Proof.Machine
end

section
/-! Canonical memory (R45, R48): a read after a write, extensionality, and the host write port, which is the one writer of memory. -/

namespace Sys2Proof.Machine

/-- A read after a write: the value at the written address, and what memory held before elsewhere. -/
theorem Memory.read_write : ∀ {m : Memory} {lo : Nat} (a : Nat) (v : Byte) (c : Nat), Memory.wfFrom lo m = true →
    Memory.read (Memory.write m a v) c = if c = a then v else Memory.read m c
  | [], _, _, _, _, _ => Memory.read_cons_op rfl
  | (b, w) :: m, _, a, v, c, hm => by
    obtain ⟨-, hb, hw, htail⟩ := Memory.wfFrom_cons.1 hm
    unfold Memory.write
    by_cases hlt : a < b
    · rw [if_pos hlt, Memory.read_cons_op (Memory.wfFrom_cons.2 ⟨hlt, hb, hw, htail⟩)]
    by_cases heq : a = b
    · subst heq
      rw [if_neg hlt, if_pos rfl, Memory.read_cons_op htail, Memory.read_cons]
      by_cases hc : c = a <;> simp only [hc, if_true, if_false]
    · rw [if_neg hlt, if_neg heq, Memory.read_cons, Memory.read_cons, Memory.read_write a v c htail]
      by_cases hc : c = b
      · rw [if_pos hc, if_pos hc, if_neg (by omega)]
      · rw [if_neg hc, if_neg hc]

theorem Memory.read_head (a : Nat) (v : Byte) (m : Memory) : Memory.read ((a, v) :: m) a = v := by
  rw [Memory.read_cons, if_pos rfl]

/-- A listed cell does not read as an unlisted one, so a canonical memory that reads alike also lists a cell at or below it. -/
theorem Memory.not_wfFrom_succ_of_read_eq {lo a : Nat} {v : Byte} {m n : Memory} (hm : Memory.wfFrom lo ((a, v) :: m) = true)
    (hread : ∀ c, c < 256 → Memory.read ((a, v) :: m) c = Memory.read n c) : ¬ Memory.wfFrom (a + 1) n = true := by
  intro hn
  obtain ⟨-, ha, hv, -⟩ := Memory.wfFrom_cons.1 hm
  apply hv
  calc v = Memory.read ((a, v) :: m) a := (Memory.read_head a v m).symm
    _ = Memory.read n a := hread a ha
    _ = unlistedByte := Memory.read_below hn (Nat.lt_succ_self a)

/-- Canonical memories whose lowest cells are at one address agree on that cell, and their tails read alike. -/
theorem Memory.read_tail_eq {a : Nat} {v w : Byte} {m n : Memory} (hm : Memory.wfFrom (a + 1) m = true)
    (hn : Memory.wfFrom (a + 1) n = true) (hread : ∀ c, c < 256 → Memory.read ((a, v) :: m) c = Memory.read ((a, w) :: n) c) :
    ∀ c, c < 256 → Memory.read m c = Memory.read n c := by
  intro c hc
  by_cases hca : c = a
  · rw [Memory.read_below hm (by omega), Memory.read_below hn (by omega)]
  · simpa only [Memory.read_cons, if_neg hca] using hread c hc

theorem Memory.eq_of_read_eq : ∀ {m n : Memory} {lo : Nat}, Memory.wfFrom lo m = true → Memory.wfFrom lo n = true →
    (∀ c, c < 256 → Memory.read m c = Memory.read n c) → m = n
  | [], [], _, _, _, _ => rfl
  | [], _ :: _, _, _, hn, hread => absurd rfl (Memory.not_wfFrom_succ_of_read_eq hn fun c hc => (hread c hc).symm)
  | _ :: _, [], _, hm, _, hread => absurd rfl (Memory.not_wfFrom_succ_of_read_eq hm hread)
  | (a, v) :: m, (b, w) :: n, _, hm, hn, hread => by
    obtain ⟨-, ha, hv, hmtail⟩ := Memory.wfFrom_cons.1 hm
    obtain ⟨-, hb, hw, hntail⟩ := Memory.wfFrom_cons.1 hn
    have hba : ¬ a < b := fun hlt =>
      Memory.not_wfFrom_succ_of_read_eq hm hread (Memory.wfFrom_cons.2 ⟨hlt, hb, hw, hntail⟩)
    have hab : ¬ b < a := fun hlt =>
      Memory.not_wfFrom_succ_of_read_eq hn (fun c hc => (hread c hc).symm) (Memory.wfFrom_cons.2 ⟨hlt, ha, hv, hmtail⟩)
    obtain rfl : a = b := by omega
    have hvw : v = w := by simpa only [Memory.read_head] using hread a ha
    rw [hvw, Memory.eq_of_read_eq hmtail hntail (Memory.read_tail_eq hmtail hntail hread)]

/-- Settles O42, by the two laws of `Memory.write`: it keeps the form, and a read after it. -/
theorem memoryWriteChangesOneCell : Obligations.MemoryWriteChangesOneCell :=
  fun _ a v hm ha => ⟨Memory.wf_write hm ha, fun c => Memory.read_write a v c hm⟩

/-- Settles O43, by induction on both lists: their lowest addresses agree, since a listed cell never reads as an unlisted one. -/
theorem canonicalMemoriesAreExtensional : Obligations.CanonicalMemoriesAreExtensional :=
  fun _ _ => Memory.eq_of_read_eq

/-- A write requested under `rst` is the one change that holding the core in reset makes to memory (R48). -/
theorem holdInReset_requestWrite_mem (s : State) (addr data : Byte) :
    (s.requestWrite addr data).holdInReset.mem = Memory.write s.mem addr.toNat data := rfl

theorem holdInReset_requestWrite_rst (s : State) (addr data : Byte) : (s.requestWrite addr data).holdInReset.rst = s.rst := rfl

theorem holdInReset_requestWrite_config (s : State) (addr data : Byte) :
    (s.requestWrite addr data).holdInReset.config = s.config := rfl

/-- Settles O44: under `rst` the step holds the core in reset and serves the write; otherwise it refuses the request. -/
theorem hostWriteOnlyUnderReset : Obligations.HostWriteOnlyUnderReset := by
  intro s addr data
  constructor
  · intro hrst hwf
    refine ⟨_, step_of_rst hrst, fun b => ?_, holdInReset_heldInReset _, ?_, holdInReset_requestWrite_config s addr data⟩
    · rw [holdInReset_requestWrite_mem, Memory.read_write _ _ _ hwf]
    · rw [holdInReset_requestWrite_rst, hrst]
  · exact fun hrst => step_of_hostWrite hrst rfl

end Sys2Proof.Machine
end

section
/-! What a step depends on (R46, R53): the fetch reads the opcode's bytes and no other, and no meaning reads memory, so that replacing
memory outside those bytes commutes with a step. And a step always answers, but for the one refusal of R48. -/

namespace Sys2Proof.Machine

/-- The state with another memory, as StepReadsOnlyItsOwnBytes writes it. -/
def State.withMem (s : State) (m : Memory) : State := { s with mem := m }

variable {s : State} {m : Memory}

@[simp] theorem State.withMem_pc : (s.withMem m).pc = s.pc := rfl
@[simp] theorem State.withMem_config : (s.withMem m).config = s.config := rfl

/-! ### The fetch -/

/-- The decoded instruction depends on the operand bytes the opcode has. -/
theorem withOperands_congr {o : Opcode} {a b a' b' : Byte} (ha : 1 ≤ o.format.operands → a = a')
    (hb : 2 ≤ o.format.operands → b = b') : o.withOperands a b = o.withOperands a' b' := by
  cases o with
  | hlt => rfl
  | prn | jmp | jeq | jne => rw [ha (by decide)]; rfl
  | ldi | mul | cmp => rw [ha (by decide), hb (by decide)]

/-- The step over a known opcode reads each of the opcode's bytes that exists. -/
theorem mem_readAddresses_opcode {o : Opcode} {k : Nat} (hrun : s.Running) (ho : s.byteAt 0 = o.byte)
    (hk : k ≤ o.format.operands) (hlt : s.pc.toNat + k < 256) : s.pc.toNat + k ∈ s.readAddresses := by
  rw [readAddresses_opcode hrun (by omega) ho, List.mem_filter, List.mem_range'_1, decide_eq_true_eq]
  omega

theorem fetch_withMem_unknown (hrun : s.Running) (hread : ∀ a, a ∈ s.readAddresses → Memory.read m a = Memory.read s.mem a)
    (hp : s.pc.toNat < 256) (ho : opcodeOfByte (s.byteAt 0) = none) : fetch (s.withMem m) = fetch s := by
  have hmem : s.pc.toNat ∈ s.readAddresses := by
    rw [readAddresses_unknown hrun hp ho]
    exact List.mem_singleton_self _
  have hsame : (s.withMem m).byteAt 0 = s.byteAt 0 := hread _ hmem
  rw [fetch_unknown (s := s.withMem m) hp (hsame ▸ ho), fetch_unknown hp ho, hsame]

theorem fetch_withMem_opcode {o : Opcode} (hrun : s.Running)
    (hread : ∀ a, a ∈ s.readAddresses → Memory.read m a = Memory.read s.mem a) (hp : s.pc.toNat < 256)
    (ho : s.byteAt 0 = o.byte) : fetch (s.withMem m) = fetch s := by
  have hsame (k : Nat) (hk : k ≤ o.format.operands) (hlt : s.pc.toNat + k < 256) : (s.withMem m).byteAt k = s.byteAt k :=
    hread _ (mem_readAddresses_opcode hrun ho hk hlt)
  have ho' : (s.withMem m).byteAt 0 = o.byte := (hsame 0 (Nat.zero_le _) hp).trans ho
  rw [fetch_opcode (s := s.withMem m) hp ho', fetch_opcode hp ho, State.withMem_pc]
  by_cases hfit : s.pc.toNat + o.format.operands < 256
  · rw [if_pos hfit, if_pos hfit,
      withOperands_congr (fun h => hsame 1 h (by omega)) (fun h => hsame 2 h (by omega))]
  · rw [if_neg hfit, if_neg hfit]

theorem fetch_withMem (hrun : s.Running) (hread : ∀ a, a ∈ s.readAddresses → Memory.read m a = Memory.read s.mem a) :
    fetch (s.withMem m) = fetch s := by
  rcases fetch_cases s with ⟨hge, hf⟩ | ⟨hp, ho, -⟩ | ⟨o, ho, hfit, -⟩ | ⟨o, ho, hp, -, -⟩
  · rw [hf, fetch_past_memory (s := s.withMem m) hge]
  · exact fetch_withMem_unknown hrun hread hp ho
  · exact fetch_withMem_opcode hrun hread (by omega) ho
  · exact fetch_withMem_opcode hrun hread hp ho

/-! ### The meanings -/

/-- A register check looks at the operand byte only. -/
theorem withReg_withMem {b : Byte} {f g : Fin 8 → State} (h : ∀ i, g i = (f i).withMem m) :
    withReg b (s.withMem m) g = (withReg b s f).withMem m := by
  by_cases hb : b.toNat < 8
  · rw [withReg_named hb, withReg_named hb, h]
  · rw [withReg_unnamed (Nat.not_lt.1 hb), withReg_unnamed (Nat.not_lt.1 hb)]
    rfl

theorem withRegPair_withMem {a b : Byte} {f g : Fin 8 → Fin 8 → State} (h : ∀ i j, g i j = (f i j).withMem m) :
    withRegPair a b (s.withMem m) g = (withRegPair a b s f).withMem m :=
  withReg_withMem fun i => withReg_withMem (h i)

theorem execJmp_withMem (reg : Byte) : ∃ t, exec (.jmp reg) s = .next t ∧
    exec (.jmp reg) (s.withMem m) = .next (t.withMem m) :=
  ⟨_, rfl, congrArg Host.Outcome.next (withReg_withMem fun _ => rfl)⟩

/-- An instruction's meaning does not depend on memory, and carries it along. -/
theorem exec_withMem (i : Instr) : ∃ t, exec i s = .next t ∧ exec i (s.withMem m) = .next (t.withMem m) := by
  cases i with
  | hlt => exact ⟨_, rfl, rfl⟩
  | ldi reg imm => exact ⟨_, rfl, congrArg Host.Outcome.next (withReg_withMem fun _ => rfl)⟩
  | prn reg => exact ⟨_, rfl, congrArg Host.Outcome.next (withReg_withMem fun _ => rfl)⟩
  | mul regA regB => exact ⟨_, rfl, congrArg Host.Outcome.next (withRegPair_withMem fun _ _ => rfl)⟩
  | cmp regA regB => exact ⟨_, rfl, congrArg Host.Outcome.next (withRegPair_withMem fun _ _ => rfl)⟩
  | jmp reg => exact execJmp_withMem reg
  | jeq reg =>
    by_cases hfl : s.fl = flEqual
    · rw [execJeq_taken reg hfl, execJeq_taken (s := s.withMem m) reg hfl]
      exact execJmp_withMem reg
    · exact ⟨_, execJeq_not_taken reg hfl, execJeq_not_taken (s := s.withMem m) reg hfl⟩
  | jne reg =>
    by_cases hfl : s.fl = flEqual
    · exact ⟨_, execJne_not_taken reg hfl, execJne_not_taken (s := s.withMem m) reg hfl⟩
    · rw [execJne_taken reg hfl, execJne_taken (s := s.withMem m) reg hfl]
      exact execJmp_withMem reg

theorem unknownOpcode_withMem (op : Byte) : unknownOpcode op (s.withMem m) = (unknownOpcode op s).withMem m := by
  rw [unknownOpcode, unknownOpcode, State.withMem_config]
  cases s.config.unknownOpcodePolicy <;> rfl

/-! ### The step -/

/-- The two states fetch alike, and what they fetch does the same to both. -/
theorem step_withMem (hrun : s.Running) (hread : ∀ a, a ∈ s.readAddresses → Memory.read m a = Memory.read s.mem a) :
    ∃ t, step s = .next t ∧ step (s.withMem m) = .next (t.withMem m) := by
  have hrun' : (s.withMem m).Running := hrun
  have hfetch : fetch (s.withMem m) = fetch s := fetch_withMem hrun hread
  cases hf : fetch s with
  | instr i =>
    rw [step_of_fetch_instr hrun hf, step_of_fetch_instr hrun' (hfetch.trans hf)]
    exact exec_withMem i
  | unknownOpcode op =>
    rw [step_of_fetch_unknown hrun hf, step_of_fetch_unknown hrun' (hfetch.trans hf), unknownOpcode_withMem]
    exact ⟨_, rfl, rfl⟩
  | missingByte k => exact ⟨_, step_of_fetch_missing hrun hf, step_of_fetch_missing hrun' (hfetch.trans hf)⟩

/-- Settles O11: replacing memory outside the bytes a step reads commutes with the step. -/
theorem stepReadsOnlyItsOwnBytes : Obligations.StepReadsOnlyItsOwnBytes :=
  fun _ _ => step_withMem

/-- Each of the outcomes of a running core's step is a next state. -/
theorem step_running_answers (hrun : s.Running) : ∃ t, step s = .next t := by
  rcases step_running_cases hrun with ⟨_, _, -, e⟩ | ⟨-, -, e⟩ | ⟨_, _, -, -, -, e⟩ | ⟨_, _, -, -, e⟩ | ⟨_, -, -, e⟩ |
    ⟨_, -, -, e⟩ | ⟨-, -, -, e⟩ | ⟨-, -, -, e⟩ <;>
    exact ⟨_, e⟩

/-- Settles O37: of the four situations of a step, only a host write with `rst` 0 has no next state. -/
theorem stepAnswersUnlessHostWriteRefused : Obligations.StepAnswersUnlessHostWriteRefused := by
  intro s
  rcases step_situations s with ⟨-, e⟩ | ⟨w, hrst, hwrite, e⟩ | ⟨hrun, -⟩ | ⟨-, -, -, e⟩
  · exact .inl ⟨_, e⟩
  · exact .inr ⟨hrst, w, hwrite, e⟩
  · exact .inl (step_running_answers hrun)
  · exact .inl ⟨_, e⟩

end Sys2Proof.Machine
end

section
/-! The opcode table and the decoder (R66, R67, R72, R74, R76): what a decoding says of the opcode byte, in both directions, the count of the
bytes outside the table, and that register operands which exist keep an instruction from faulting (R68, R147). -/

namespace Sys2Proof

/-! ### Decoding an encoding -/

/-- Bytes that begin with an instruction's encoding decode to it. -/
theorem decode_encode_append (i : Instr) (rest : List Byte) : decode (encode i ++ rest) = .instr i :=
  decode_eq_instr_iff.2 (List.prefix_append _ _)

/-- Settles O4: `decode_eq_instr_iff` read in both directions, and the length of each encoding. -/
theorem decodeInvertsEncode : Obligations.DecodeInvertsEncode := by
  refine ⟨decode_encode_append, fun bytes i h => ?_, length_encode⟩
  obtain ⟨rest, hrest⟩ := decode_eq_instr_iff.1 h
  exact ⟨rest, hrest.symm⟩

/-- Settles O1: each list of bytes is the encoding of its instruction, followed by the rest. -/
theorem opcodeWordsDecode : Obligations.OpcodeWordsDecode := fun a b rest =>
  ⟨decode_encode_append .hlt rest, decode_encode_append (.ldi a b) rest, decode_encode_append (.mul a b) rest,
    decode_encode_append (.prn a) rest, decode_encode_append (.cmp a b) rest, decode_encode_append (.jmp a) rest,
    decode_encode_append (.jeq a) rest, decode_encode_append (.jne a) rest⟩

/-! ### The opcode byte of a decoded instruction -/

@[simp] theorem opcode_withOperands (o : Opcode) (a b : Byte) : (o.withOperands a b).opcode = o := by cases o <;> rfl

/-- An encoding is the opcode byte and as many of the operand bytes as the opcode has. -/
theorem encode_withOperands (o : Opcode) (a b : Byte) :
    encode (o.withOperands a b) = [o.byte, a, b].take (1 + o.format.operands) := by cases o <;> rfl

theorem encode_eq_cons (i : Instr) : ∃ operands, encode i = i.opcode.byte :: operands := by cases i <;> exact ⟨_, rfl⟩

theorem decode_opcode_byte (o : Opcode) (a b : Byte) : decode [o.byte, a, b] = .instr (o.withOperands a b) := by
  rw [decode_eq_instr_iff, encode_withOperands]
  exact List.take_prefix _ _

theorem opcode_byte_of_decode_cons {op : Byte} {rest : List Byte} {i : Instr} (h : decode (op :: rest) = .instr i) :
    op = i.opcode.byte := by
  obtain ⟨operands, hencode⟩ := encode_eq_cons i
  have hprefix := decode_eq_instr_iff.1 h
  rw [hencode, List.cons_prefix_cons] at hprefix
  exact hprefix.1.symm

/-- With both operand bytes there, an opcode is selected by its byte and by no other (R67). -/
theorem decode_opcode_iff (op a b : Byte) (o : Opcode) :
    (∃ i, decode [op, a, b] = .instr i ∧ i.opcode = o) ↔ op = o.byte := by
  constructor
  · rintro ⟨i, h, rfl⟩
    exact opcode_byte_of_decode_cons h
  · rintro rfl
    exact ⟨_, decode_opcode_byte o a b, opcode_withOperands o a b⟩

/-- Settles O2: the byte of each opcode (`Opcode.byte`), written out in binary. -/
theorem opcodeSelectedByExactEquality : Obligations.OpcodeSelectedByExactEquality := by
  intro op a b o
  rw [decode_opcode_iff]
  cases o <;> rfl

/-! ### The bytes outside the table -/

theorem decodeR_ne_unknownOpcode {readByte : Nat → Option Byte} {build : Byte → Instr} {op : Byte} :
    decodeR readByte build ≠ .unknownOpcode op := by
  unfold decodeR
  cases readByte 1 <;> simp

theorem decodeRR_ne_unknownOpcode {readByte : Nat → Option Byte} {build : Byte → Byte → Instr} {op : Byte} :
    decodeRR readByte build ≠ .unknownOpcode op := by
  unfold decodeRR
  cases readByte 1 with
  | none => simp
  | some a => cases readByte 2 <;> simp

/-- Whether the opcode is unknown is settled by its byte, before any operand byte is read (R53, R74). -/
theorem decodeFrom_eq_unknownOpcode_iff {readByte : Nat → Option Byte} {op : Byte} (h0 : readByte 0 = some op) :
    decodeFrom readByte = .unknownOpcode op ↔ opcodeOfByte op = none := by
  unfold decodeFrom
  rw [h0]
  cases ho : opcodeOfByte op with
  | none => simp [ho]
  | some o => cases o <;> simp [ho, decodeR_ne_unknownOpcode, decodeRR_ne_unknownOpcode]

end Sys2Proof

namespace Sys2Proof.Machine

theorem ofNat_mem_opcodeBytes {n : Nat} (hn : n < 256) :
    BitVec.ofNat 8 n ∈ opcodeBytes ↔ n ∈ opcodeBytes.map BitVec.toNat := by
  rw [List.mem_map]
  constructor
  · intro h
    exact ⟨_, h, by simpa using hn⟩
  · rintro ⟨b, hb, rfl⟩
    rwa [BitVec.ofNat_toNat, BitVec.setWidth_eq]

/-- The numbers below 256 whose byte is an opcode are those of the table. -/
theorem perm_listed :
    ((List.range 256).filter (fun n => decide (BitVec.ofNat 8 n ∈ opcodeBytes))).Perm (opcodeBytes.map BitVec.toNat) := by
  have hdistinct : (opcodeBytes.map BitVec.toNat).Nodup := by decide
  have hbounded : ∀ n ∈ opcodeBytes.map BitVec.toNat, n < 256 := by decide
  rw [List.perm_ext_iff_of_nodup (List.nodup_range.filter _) hdistinct]
  intro n
  rw [List.mem_filter, List.mem_range, decide_eq_true_eq]
  exact ⟨fun ⟨hn, h⟩ => (ofNat_mem_opcodeBytes hn).1 h,
    fun h => ⟨hbounded n h, (ofNat_mem_opcodeBytes (hbounded n h)).2 h⟩⟩

/-- The table's eight bytes are distinct, so they leave 248 of the 256. -/
theorem length_unlisted : ((List.range 256).filter (fun n => decide (BitVec.ofNat 8 n ∉ opcodeBytes))).length = 248 := by
  have hlisted : ((List.range 256).filter (fun n => decide (BitVec.ofNat 8 n ∈ opcodeBytes))).length = 8 :=
    perm_listed.length_eq
  have hsplit := List.length_eq_countP_add_countP (fun n => decide (BitVec.ofNat 8 n ∈ opcodeBytes)) (l := List.range 256)
  rw [List.countP_eq_length_filter, List.countP_eq_length_filter, hlisted, List.length_range] at hsplit
  simp only [decide_eq_true_eq] at hsplit
  omega

/-- Settles O3: unknown are exactly the bytes outside the table, and the table's eight bytes are distinct. -/
theorem unlistedBytesAreUnknownOpcodes : Obligations.UnlistedBytesAreUnknownOpcodes := by
  have hunknown (op : Byte) (rest : List Byte) : decode (op :: rest) = .unknownOpcode op ↔ op ∉ opcodeBytes :=
    (decodeFrom_eq_unknownOpcode_iff rfl).trans not_mem_opcodeBytes.symm
  refine ⟨hunknown, ?_, by decide, by decide⟩
  have hsame (n : Nat) : (decode [BitVec.ofNat 8 n] == .unknownOpcode (BitVec.ofNat 8 n)) =
      decide (BitVec.ofNat 8 n ∉ opcodeBytes) := by
    rw [Bool.eq_iff_iff, beq_iff_eq, decide_eq_true_eq]
    exact hunknown _ []
  rw [List.filter_congr fun n _ => hsame n]
  exact length_unlisted

/-! ### Instructions whose register operands exist -/

/-- Settles O25: of the outcomes of `exec_cases` the one that faults is that of an instruction which is not well formed. -/
theorem wellFormedInstructionsComplete : Obligations.WellFormedInstructionsComplete := by
  intro i s hwf hrun
  have hsafe : s.Safe := by simp [hrun]
  rcases exec_cases i s with ⟨-, e⟩ | ⟨_, -, hill, -⟩ | ⟨_, _, -, e⟩ | ⟨_, _, _, _, -, e⟩ | ⟨_, _, -, e⟩ | ⟨_, -, e⟩ | ⟨-, e⟩
  · exact ⟨_, e, by simp, rfl⟩
  · exact absurd hwf (by simp [hill])
  · exact ⟨_, e, hsafe, rfl⟩
  · exact ⟨_, e, hsafe, rfl⟩
  · exact ⟨_, e, hsafe, rfl⟩
  · exact ⟨_, e, hsafe, rfl⟩
  · exact ⟨_, e, hsafe, rfl⟩

end Sys2Proof.Machine
end

section
/-! The ALU (R85..R92): its selects as numbers, the comparison, where a result goes, and MUL and CMP, whose faults are those of any
instruction with two checked register operands. -/

namespace Sys2Proof.Machine

variable {s : State}

/-! ### The operations on two bytes -/

/-- Narrowing to a byte is reduction modulo 256 (R86, R87). -/
theorem ofNat_mod_256 (n : Nat) : BitVec.ofNat 8 (n % 256) = BitVec.ofNat 8 n :=
  BitVec.eq_of_toNat_eq (Nat.mod_mod n 256)

theorem aluAdd_toNat (a b : Byte) : (aluAdd a b).toNat = (a.toNat + b.toNat) % 256 := BitVec.toNat_ofNat _ _

theorem aluMul_eq_ofNat_mod (a b : Byte) : aluMul a b = BitVec.ofNat 8 (a.toNat * b.toNat % 256) := (ofNat_mod_256 _).symm

theorem compareFlags_self (a : Byte) : compareFlags a a = 0b001 := if_pos rfl

theorem compareFlags_of_lt {a b : Byte} (h : a.toNat < b.toNat) : compareFlags a b = 0b100 := by
  rw [compareFlags, if_neg (Nat.ne_of_lt h), if_pos h, flLess]

theorem compareFlags_of_gt {a b : Byte} (h : a.toNat > b.toNat) : compareFlags a b = 0b010 := by
  rw [compareFlags, if_neg (Nat.ne_of_gt h), if_neg (Nat.lt_asymm h), flGreater]

/-- The equality may be tested last: no two of the three comparisons hold together. -/
theorem compareFlags_eq_ite (a b : Byte) :
    compareFlags a b = if a.toNat < b.toNat then 0b100 else if a.toNat > b.toNat then 0b010 else 0b001 := by
  rcases compareFlags_cases a b with ⟨heq, e⟩ | ⟨hlt, e⟩ | ⟨hgt, e⟩
  · rw [e, heq, if_neg (Nat.lt_irrefl _), if_neg (Nat.lt_irrefl _), flEqual]
  · rw [e, if_pos hlt, flLess]
  · rw [e, if_neg (Nat.lt_asymm hgt), if_pos hgt, flGreater]

/-! ### Where a result goes -/

theorem withAlu_of_value {sel : BitVec 2} {i j : Fin 8} {v : Byte} (h : alu sel (s.readReg i) (s.readReg j) = .value v)
    (andThen : State → State) : withAlu sel i j s andThen = andThen (s.writeReg i v) := by rw [withAlu, h]

theorem withAlu_of_flags {sel : BitVec 2} {i j : Fin 8} {v : Byte} (h : alu sel (s.readReg i) (s.readReg j) = .flags v)
    (andThen : State → State) : withAlu sel i j s andThen = andThen (s.writeFl v) := by rw [withAlu, h]

theorem withAlu_of_unsupported {sel : BitVec 2} {i j : Fin 8} (h : alu sel (s.readReg i) (s.readReg j) = .unsupported)
    (andThen : State → State) : withAlu sel i j s andThen = s.FaultedWith .unsupportedAlu sel.toNat := by
  rw [withAlu, h, State.FaultedWith, BitVec.ofNat_toNat, State.raise]

/-- Settles O28: each select by its operation's own lemma, each result by where `withAlu` sends it. -/
theorem aluSelects : Obligations.AluSelects := by
  refine ⟨fun a b => ⟨?add, ?mul, ?equal, ?less, ?greater, rfl⟩, fun sel i j s v andThen => ⟨?value, ?flags, ?unsupported⟩⟩
  case add => exact congrArg AluResult.value (ofNat_mod_256 _).symm
  case mul => exact congrArg AluResult.value (aluMul_eq_ofNat_mod a b)
  case equal =>
    rintro rfl
    exact congrArg AluResult.flags (compareFlags_self a)
  case less => exact fun h => congrArg AluResult.flags (compareFlags_of_lt h)
  case greater => exact fun h => congrArg AluResult.flags (compareFlags_of_gt h)
  case value => exact fun h => withAlu_of_value h andThen
  case flags => exact fun h => withAlu_of_flags h andThen
  case unsupported => exact fun h => withAlu_of_unsupported h andThen

/-- Settles O29: ADD writes its sum to register `i`, a write that no other register and no other field sees. -/
theorem aluAddOverRegisters : Obligations.AluAddOverRegisters := by
  refine ⟨fun i j s => ?_, by decide⟩
  have hsum : ((s.writeReg i (aluAdd (s.readReg i) (s.readReg j))).readReg i).toNat =
      ((s.readReg i).toNat + (s.readReg j).toNat) % 256 := by
    rw [State.readReg_writeReg, if_pos rfl, aluAdd_toNat]
  refine ⟨hsum, ?double, ?others, rfl, rfl, rfl, rfl, rfl, rfl⟩
  case double =>
    rintro rfl
    rw [Nat.two_mul]
    exact hsum
  case others => exact fun k hk => getElem_set_fin_ne _ (Fin.val_ne_of_ne hk.symm)

/-! ### Two checked register operands -/

theorem withRegPair_named {a b : Byte} (ha : a.toNat < 8) (hb : b.toNat < 8) (andThen : Fin 8 → Fin 8 → State) :
    withRegPair a b s andThen = andThen ⟨a.toNat, ha⟩ ⟨b.toNat, hb⟩ := by
  rw [withRegPair, withReg_named ha, withReg_named hb]

/-- The fault of a register check, as `State.FaultedWith` writes it. -/
theorem withReg_faultedWith {b : Byte} (hb : 8 ≤ b.toNat) (andThen : Fin 8 → State) :
    withReg b s andThen = s.FaultedWith .regRange b.toNat := by
  rw [withReg_unnamed hb, zext9_eq_ofNat, State.raise, State.FaultedWith]

/-- The step over a known opcode whose operand byte at offset `k + 1` is the first that does not exist (R146). -/
theorem step_of_missing_operand {o : Opcode} {k : Nat} (hrun : s.Running) (hop : s.byteAt 0 = o.byte)
    (hk : k < o.format.operands) (hlast : s.pc.toNat + k < 256) (hmissing : 256 ≤ s.pc.toNat + (k + 1)) :
    step s = .next (s.FaultedWith .memRange (s.pc.toNat + (k + 1))) := by
  have hfetch := fetch_opcode (by omega) hop
  rw [if_neg (by omega), show 256 - s.pc.toNat = k + 1 by omega] at hfetch
  exact step_of_fetch_missing hrun hfetch

/-- The faults of an instruction that checks its two register operands first, in the order of R152: what it does after the checks does not
matter to them. -/
theorem step_faults_of_withRegPair {o : Opcode} {andThen : Fin 8 → Fin 8 → State} (hrun : s.Running) (hp : s.pc.toNat < 256)
    (hop : s.byteAt 0 = o.byte) (hformat : o.format.operands = 2)
    (hexec : ∀ a b, exec (o.withOperands a b) s = .next (withRegPair a b s andThen)) :
    (s.pc.toNat + 1 ≥ 256 → step s = .next (s.FaultedWith .memRange (s.pc.toNat + 1))) ∧
    (s.pc.toNat + 1 < 256 → s.pc.toNat + 2 ≥ 256 → step s = .next (s.FaultedWith .memRange (s.pc.toNat + 2))) ∧
    (s.pc.toNat + 2 < 256 → (s.byteAt 1).toNat ≥ 8 → step s = .next (s.FaultedWith .regRange (s.byteAt 1).toNat)) ∧
    (s.pc.toNat + 2 < 256 → (s.byteAt 1).toNat < 8 → (s.byteAt 2).toNat ≥ 8 →
      step s = .next (s.FaultedWith .regRange (s.byteAt 2).toNat)) := by
  have hstep (hfit : s.pc.toNat + 2 < 256) : step s = .next (withRegPair (s.byteAt 1) (s.byteAt 2) s andThen) :=
    (step_of_opcode hrun hop (hformat ▸ hfit)).trans (hexec _ _)
  refine ⟨fun hmissing => ?_, fun hlast hmissing => ?_, fun hfit ha => ?_, fun hfit ha hb => ?_⟩
  · exact step_of_missing_operand (k := 0) hrun hop (by omega) hp hmissing
  · exact step_of_missing_operand (k := 1) hrun hop (by omega) hlast hmissing
  · rw [hstep hfit, withRegPair, withReg_faultedWith ha]
  · rw [hstep hfit, withRegPair, withReg_named ha, withReg_faultedWith hb]

/-! ### The meanings, completed -/

theorem execLdi_named {reg : Byte} (imm : Byte) (h : reg.toNat < 8) :
    exec (.ldi reg imm) s = .next ((s.writeReg ⟨reg.toNat, h⟩ imm).advance 3) :=
  congrArg Host.Outcome.next (withReg_named h _)

theorem execMul_named {a b : Byte} (ha : a.toNat < 8) (hb : b.toNat < 8) : exec (.mul a b) s =
    .next ((s.writeReg ⟨a.toNat, ha⟩ (aluMul (s.readReg ⟨a.toNat, ha⟩) (s.readReg ⟨b.toNat, hb⟩))).advance 3) :=
  congrArg Host.Outcome.next (withRegPair_named ha hb _)

theorem execCmp_named {a b : Byte} (ha : a.toNat < 8) (hb : b.toNat < 8) : exec (.cmp a b) s =
    .next ((s.writeFl (compareFlags (s.readReg ⟨a.toNat, ha⟩) (s.readReg ⟨b.toNat, hb⟩))).advance 3) :=
  congrArg Host.Outcome.next (withRegPair_named ha hb _)

/-- Settles O20: the checks pass, and the product is narrowed modulo 256. -/
theorem ldiAndMulComplete : Obligations.LdiAndMulComplete := by
  refine fun s => ⟨fun reg imm h => execLdi_named imm h, fun regA regB ha hb => ?_⟩
  rw [execMul_named ha hb, aluMul_eq_ofNat_mod]
  rfl

/-- Settles O21: the checks pass, and `FL` is the comparison. -/
theorem cmpCompletes : Obligations.CmpCompletes := by
  intro s regA regB ha hb
  rw [execCmp_named ha hb, compareFlags_eq_ite]
  rfl

/-! ### The step over MUL and over CMP -/

/-- The sequential advance of R104, as a number. -/
theorem pc_add_ofNat (s : State) (n : Nat) : s.pc + BitVec.ofNat 9 n = BitVec.ofNat 9 (s.pc.toNat + n) := by
  rw [BitVec.ofNat_add, BitVec.ofNat_toNat, BitVec.setWidth_eq]

/-- Settles O14: the faults of two checked registers, and `ldiAndMulComplete` where both exist. -/
theorem mulMultipliesModulo256 : Obligations.MulMultipliesModulo256 := by
  intro s hrun hp hop
  obtain ⟨hmem1, hmem2, hreg1, hreg2⟩ := step_faults_of_withRegPair (o := .mul) hrun hp hop rfl fun _ _ => rfl
  refine ⟨hmem1, hmem2, hreg1, hreg2, fun hfit ha hb => ?_⟩
  rw [step_of_opcode (o := .mul) hrun hop hfit, ← pc_add_ofNat]
  exact (ldiAndMulComplete s).2 _ _ ha hb

/-- Settles O15: the faults of two checked registers, and the comparison where both exist. -/
theorem cmpSetsFlags : Obligations.CmpSetsFlags := by
  intro s hrun hp hop
  obtain ⟨hmem1, hmem2, hreg1, hreg2⟩ := step_faults_of_withRegPair (o := .cmp) hrun hp hop rfl fun _ _ => rfl
  refine ⟨hmem1, hmem2, hreg1, hreg2, fun hfit ha hb => ⟨_, ?step, compareFlags_of_lt, compareFlags_of_gt, ?equal⟩⟩
  case step =>
    rw [step_of_opcode (o := .cmp) hrun hop hfit, ← pc_add_ofNat]
    exact execCmp_named ha hb
  case equal =>
    intro h
    rw [h, compareFlags_self]

end Sys2Proof.Machine
end

section
/-! The sequencer (R100..R112): which instruction a step executes, an opcode fetch past memory, unknown opcodes under both policies, the
next `pc` (R104), and runs: their composition, their ends, and the walk over unknown bytes. -/

namespace Sys2Proof.Machine

variable {s t : State}

/-! ### One step, by what is fetched -/

/-- Settles O6: the bytes of an encoding are fetched as its instruction. -/
theorem stepRunsDecodedInstruction : Obligations.StepRunsDecodedInstruction :=
  fun _ _ hrun hbytes => step_of_fetch_instr hrun (fetch_of_holdsAt hbytes)

/-- Settles O7: the first missing byte is the opcode's own, and `pc` as an address is `pc` as an info. -/
theorem opcodeFetchPastMemoryFaults : Obligations.OpcodeFetchPastMemoryFaults := by
  intro s hrun hp
  have hinfo : BitVec.ofNat 9 (s.pc.toNat + 0) = s.pc := by rw [← pc_add_ofNat, BitVec.add_zero]
  rw [step_of_fetch_missing hrun (fetch_past_memory hp), memRangeFault, hinfo, State.raise]

theorem unknownOpcode_fault (op : Byte) (h : s.config.unknownOpcodePolicy = .fault) :
    unknownOpcode op s = s.raise .unknownOpcode (zext9 op) := by
  rw [unknownOpcode, h]

theorem unknownOpcode_legacyNop (op : Byte) (h : s.config.unknownOpcodePolicy = .legacyNop) :
    unknownOpcode op s = s.advance 1 := by
  rw [unknownOpcode, h]

/-- The step over a byte outside the opcode table (R108). -/
theorem step_of_unknown_byte (hrun : s.Running) (hp : s.pc.toNat < 256) (hb : s.byteAt 0 ∉ opcodeBytes) :
    step s = .next (unknownOpcode (s.byteAt 0) s) :=
  step_of_fetch_unknown hrun (fetch_unknown hp (not_mem_opcodeBytes.1 hb))

/-- Under `LegacyNop` the step passes the byte. -/
theorem step_over_unknown_byte (hrun : s.Running) (hpolicy : s.config.unknownOpcodePolicy = .legacyNop) (hp : s.pc.toNat < 256)
    (hb : s.byteAt 0 ∉ opcodeBytes) : step s = .next (s.advance 1) := by
  rw [step_of_unknown_byte hrun hp hb, unknownOpcode_legacyNop _ hpolicy]

/-- Settles O9: the byte is fetched alone, and each policy gives its own meaning of it. -/
theorem unknownOpcodeByPolicy : Obligations.UnknownOpcodeByPolicy := by
  intro s hrun hp hb
  refine ⟨readAddresses_unknown hrun hp (not_mem_opcodeBytes.1 hb), fun hpolicy => ?_,
    fun hpolicy => step_over_unknown_byte hrun hpolicy hp hb⟩
  rw [step_of_unknown_byte hrun hp hb, unknownOpcode_fault _ hpolicy, zext9_eq_ofNat, State.raise]

/-- Settles O12: HLT has no operand byte, so its step is its meaning wherever its opcode exists. -/
theorem hltHalts : Obligations.HltHalts :=
  fun _ hrun hp hb => (step_of_opcode (o := .hlt) hrun hb hp).trans execHlt_eq

theorem execPrn_named {reg : Byte} (h : reg.toNat < 8) :
    exec (.prn reg) s = .next ((s.output (s.readReg ⟨reg.toNat, h⟩)).advance 2) :=
  congrArg Host.Outcome.next (withReg_named h _)

/-- Settles O22: PRN's check passes, and HLT has none. -/
theorem prnAndHltComplete : Obligations.PrnAndHltComplete :=
  fun _ => ⟨fun _ h => execPrn_named h, execHlt_eq⟩

/-! ### The next `pc` (R104): a row of the table holds where its condition does, since the conditions exclude each other -/

theorem nextPc_of_hlt (hb : s.byteAt 0 = 0x01) : s.NextPc s.pc.toNat := by
  simp [State.NextPc, takenWith, opcodeBytes, threeByteOpcodes, hb]

theorem nextPc_of_three_bytes (hb : s.byteAt 0 ∈ threeByteOpcodes) : s.NextPc (s.pc.toNat + 3) := by
  simp only [threeByteOpcodes, List.mem_cons, List.not_mem_nil, or_false] at hb
  obtain hb | hb | hb := hb <;>
    simp [State.NextPc, takenWith, opcodeBytes, threeByteOpcodes, hb]

theorem nextPc_of_prn (hb : s.byteAt 0 = 0x47) : s.NextPc (s.pc.toNat + 2) := by
  simp [State.NextPc, takenWith, opcodeBytes, twoByteOpcodes, threeByteOpcodes, hb]

theorem nextPc_of_jump {target : Byte} (hb : s.byteAt 0 = 0x54 ∨ takenWith (s.byteAt 0) s.fl) (htarget : s.targetIs target) :
    s.NextPc target.toNat := by
  have hrow : ∃ v, s.targetIs v ∧ target.toNat = v.toNat := ⟨target, htarget, rfl⟩
  obtain hb | ⟨hb, hfl⟩ | ⟨hb, hfl⟩ := hb <;>
    simp_all [State.NextPc, takenWith, opcodeBytes, twoByteOpcodes, threeByteOpcodes]

theorem nextPc_of_not_taken (hb : s.byteAt 0 = 0x55 ∨ s.byteAt 0 = 0x56) (hpass : ¬ takenWith (s.byteAt 0) s.fl) :
    s.NextPc (s.pc.toNat + 2) := by
  obtain hb | hb := hb <;>
    simp_all [State.NextPc, takenWith, opcodeBytes, twoByteOpcodes, threeByteOpcodes]

/-- Every row but the last asks for a byte of the opcode table. -/
theorem nextPc_of_unknown (hb : s.byteAt 0 ∉ opcodeBytes) : s.NextPc (s.pc.toNat + 1) := by
  simp_all [State.NextPc, takenWith, opcodeBytes, twoByteOpcodes, threeByteOpcodes]

/-- The sequential advance of an instruction that fits below 256, as an exact number. -/
theorem advance_pc_toNat {n : PcWord} (h : s.pc.toNat + n.toNat ≤ 256) : (s.advance n).pc.toNat = s.pc.toNat + n.toNat := by
  rw [State.advance_pc, BitVec.toNat_add_of_lt (by omega)]

/-- What R104 says of a step from `s` to `t`: a fault leaves `pc`, and any other step moves it as the table says, to at most 256. -/
def State.SequencedTo (s t : State) : Prop :=
  t.pc.toNat ≤ 256 ∧ (t.status = .faulted → t.pc = s.pc) ∧ (t.status ≠ .faulted → s.NextPc t.pc.toNat)

theorem sequencedTo_of_nextPc (hsafe : t.status ≠ .faulted) (hle : t.pc.toNat ≤ 256) (hnext : s.NextPc t.pc.toNat) :
    s.SequencedTo t :=
  ⟨hle, fun hfault => absurd hfault hsafe, fun _ => hnext⟩

theorem sequencedTo_raise (cause : FaultCause) (info : PcWord) (hp : s.pc.toNat ≤ 256) : s.SequencedTo (s.raise cause info) :=
  ⟨hp, fun _ => rfl, fun hsafe => absurd rfl hsafe⟩

theorem sequencedTo_of_advance {n : PcWord} (hsafe : t.status ≠ .faulted) (hpc : t.pc = (s.advance n).pc)
    (hfit : s.pc.toNat + n.toNat ≤ 256) (hnext : s.NextPc (s.pc.toNat + n.toNat)) : s.SequencedTo t := by
  have hexact : t.pc.toNat = s.pc.toNat + n.toNat := by rw [hpc, advance_pc_toNat hfit]
  rw [← hexact] at hfit hnext
  exact sequencedTo_of_nextPc hsafe hfit hnext

/-- Settles O36: each outcome of a running core's step is a fault or falls under one row of the table. -/
theorem pcSequencing : Obligations.PcSequencing := by
  intro s hrun hp
  have ⟨_, _, hstatus⟩ := hrun
  have hsafe : s.status ≠ .faulted := by simp [hstatus]
  rcases step_running_cases hrun with ⟨cause, info, -, e⟩ | ⟨hb, -, e⟩ | ⟨j, v, hb, -, hfit, e⟩ | ⟨u, v, hb, hfit, e⟩ |
    ⟨h8, hb, hfit, e⟩ | ⟨h8, hb, -, e⟩ | ⟨hb, hpass, hfit, e⟩ | ⟨hfit, hb, -, e⟩ <;>
    refine ⟨_, e, ?_⟩
  · exact sequencedTo_raise cause info hp
  · exact sequencedTo_of_nextPc (by simp) hp (nextPc_of_hlt hb)
  · have hthree : s.byteAt 0 ∈ threeByteOpcodes := by obtain h | h := hb <;> simp [h, threeByteOpcodes]
    exact sequencedTo_of_advance (n := 3) hsafe rfl hfit (nextPc_of_three_bytes hthree)
  · have hthree : s.byteAt 0 ∈ threeByteOpcodes := by simp [hb, threeByteOpcodes]
    exact sequencedTo_of_advance (n := 3) hsafe rfl hfit (nextPc_of_three_bytes hthree)
  · exact sequencedTo_of_advance (n := 2) hsafe rfl hfit (nextPc_of_prn hb)
  · have htarget : s.targetIs (s.readReg ⟨_, h8⟩) := ⟨h8, rfl⟩
    refine sequencedTo_of_nextPc hsafe (zext9_toNat_le _) ?_
    rw [State.setPc_pc, zext9_toNat]
    exact nextPc_of_jump hb htarget
  · exact sequencedTo_of_advance (n := 2) hsafe rfl hfit (nextPc_of_not_taken hb hpass)
  · exact sequencedTo_of_advance (n := 1) hsafe rfl hfit (nextPc_of_unknown (not_mem_opcodeBytes.2 hb))

/-! ### Runs -/

theorem run_succ_of_step (n : Nat) (h : step s = .next t) : Sys2Proof.core.run (n + 1) s = Sys2Proof.core.run n t := by
  have hstep : Sys2Proof.core.step s = .next t := h
  simp only [Host.Core.run, hstep]

/-- A run goes on from where its first `m` steps lead. -/
theorem run_add {M : Host.Core} {s t : M.State} {m : Nat} (n : Nat) (h : M.run m s = .next t) : M.run (m + n) s = M.run n t := by
  induction m generalizing s with
  | zero =>
    cases h
    rw [Nat.zero_add]
  | succ m ih =>
    rw [Nat.succ_add]
    simp only [Host.Core.run] at h ⊢
    cases hstep : M.step s with
    | next u =>
      simp only [hstep] at h ⊢
      exact ih h
    | fault r => simp [hstep] at h
    | refused r => simp [hstep] at h

theorem run_of_ended (hrst : s.rst = false) (hwrite : s.hostWrite = none) (hended : s.Ended) (n : Nat) :
    Sys2Proof.core.run n s = .next s := by
  induction n with
  | zero => rfl
  | succ n ih => rw [run_succ_of_step n (step_of_ended hrst hwrite hended), ih]

/-- Settles O40: each step of an ended core leads to the same state; the values `assertRst` writes are those of R170. -/
theorem terminalStatesStay : Obligations.TerminalStatesStay :=
  fun _ hrst hwrite hended => ⟨run_of_ended hrst hwrite hended, rfl, rfl, rfl, rfl, rfl, rfl, rfl⟩

/-- The later of two ends of a run is the earlier one, at which the core stays. -/
theorem runEndsIn_unique_of_le {u : State} {m n : Nat} (hle : m ≤ n) (ht : RunEndsIn s m t) (hu : RunEndsIn s n u) : t = u := by
  obtain ⟨hrun, hended, hrst, hwrite⟩ := ht
  obtain ⟨hrun', -⟩ := hu
  have hlater : Sys2Proof.core.run n s = .next t := by
    rw [← Nat.add_sub_cancel' hle, run_add _ hrun, run_of_ended hrst hwrite hended]
  exact Host.Outcome.next.inj (hlater.symm.trans hrun')

/-- Settles O51: of two ends the later is the earlier. -/
theorem runEndIsUnique : Obligations.RunEndIsUnique := by
  intro s t u m n ht hu
  obtain hle | hle := Nat.le_total m n
  · exact runEndsIn_unique_of_le hle ht hu
  · exact (runEndsIn_unique_of_le hle hu ht).symm

theorem byteAt_advance {n : PcWord} (h : s.pc.toNat + n.toNat ≤ 256) (k : Nat) :
    (s.advance n).byteAt k = s.byteAt (k + n.toNat) := by
  rw [State.byteAt, State.byteAt, advance_pc_toNat h, State.advance_mem, Nat.add_right_comm, Nat.add_assoc]

theorem advance_zero (s : State) : s.advance 0 = s := by
  simp [State.advance, State.setPc]

theorem advance_advance (s : State) (m n : PcWord) : (s.advance m).advance n = s.advance (m + n) := by
  simp only [State.advance, State.setPc, BitVec.add_assoc]

/-- The walk of R108, by induction on the number of bytes: after one step the core stands before the other `n` in the same situation. -/
theorem run_over_unknown_bytes {n : Nat} (hrun : s.Running) (hpolicy : s.config.unknownOpcodePolicy = .legacyNop)
    (hfit : s.pc.toNat + n ≤ 256) (hbytes : ∀ k, k < n → s.byteAt k ∉ opcodeBytes) :
    Sys2Proof.core.run n s = .next (s.advance (BitVec.ofNat 9 n)) := by
  induction n generalizing s with
  | zero => exact congrArg Host.Outcome.next (advance_zero s).symm
  | succ n ih =>
    have hone : s.pc.toNat + 1 ≤ 256 := by omega
    have hstep : step s = .next (s.advance 1) := step_over_unknown_byte hrun hpolicy hone (hbytes 0 (by omega))
    have hpc : (s.advance 1).pc.toNat = s.pc.toNat + 1 := advance_pc_toNat hone
    have hrest : Sys2Proof.core.run n (s.advance 1) = .next ((s.advance 1).advance (BitVec.ofNat 9 n)) := by
      refine ih hrun hpolicy (by omega) fun k hk => ?_
      rw [byteAt_advance hone]
      exact hbytes (k + 1) (by omega)
    have hsum : 1 + BitVec.ofNat 9 n = BitVec.ofNat 9 (n + 1) := by
      rw [Nat.add_comm]
      exact (BitVec.ofNat_add 1 n).symm
    rw [run_succ_of_step n hstep, hrest, advance_advance, hsum]

/-- Settles O50: the walk, its advance written as a number. -/
theorem legacyNopWalksUnknownBytes : Obligations.LegacyNopWalksUnknownBytes := by
  intro s n hrun hpolicy hfit hbytes
  rw [run_over_unknown_bytes hrun hpolicy hfit hbytes, State.advance, pc_add_ofNat, State.setPc]

end Sys2Proof.Machine
end

section
/-! LDI and PRN (R120, R121): the fault of an instruction whose first check is operand0, and what the output port presents in a step over a
known opcode. -/

namespace Sys2Proof.Machine

variable {s : State}

/-- `REG_RANGE` over a known opcode whose meaning checks operand0 first: what it does after the check does not matter to the fault. -/
theorem step_of_unnamed_operand0 {o : Opcode} {andThen : Fin 8 → State} (hrun : s.Running) (hop : s.byteAt 0 = o.byte)
    (hfit : s.pc.toNat + o.format.operands < 256) (hreg : 8 ≤ (s.byteAt 1).toNat)
    (hexec : exec (o.withOperands (s.byteAt 1) (s.byteAt 2)) s = .next (withReg (s.byteAt 1) s andThen)) :
    step s = .next (s.FaultedWith .regRange (s.byteAt 1).toNat) := by
  rw [step_of_opcode hrun hop hfit, hexec, withReg_faultedWith hreg]

/-- Settles O13: a missing operand byte stops the fetch, an operand0 of 8 or more stops LDI's one check, and else `ldiAndMulComplete` gives
the meaning. -/
theorem ldiLoadsImmediate : Obligations.LdiLoadsImmediate := by
  intro s hrun hp hop
  refine ⟨fun hmissing => ?operand0, fun hlast hmissing => ?operand1, fun hfit hreg => ?register, fun hfit hreg => ?completed⟩
  case operand0 => exact step_of_missing_operand (o := .ldi) (k := 0) hrun hop (by decide) hp hmissing
  case operand1 => exact step_of_missing_operand (o := .ldi) (k := 1) hrun hop (by decide) hlast hmissing
  case register => exact step_of_unnamed_operand0 (o := .ldi) hrun hop hfit hreg rfl
  case completed =>
    rw [step_of_opcode (o := .ldi) hrun hop hfit, ← pc_add_ofNat]
    exact (ldiAndMulComplete s).1 _ _ hreg

/-! ### The output port (R158), by what is fetched -/

theorem outPort_of_fetch_missing {k : Nat} (hf : fetch s = .missingByte k) : s.outPort = none := by
  simp only [State.outPort, hf, ite_self]

theorem outPort_of_prn_named {reg : Byte} (hrun : s.Running) (hf : fetch s = .instr (.prn reg)) (h : reg.toNat < 8) :
    s.outPort = some (s.readReg ⟨reg.toNat, h⟩) := by
  simp only [State.outPort, hf, if_pos (executes_iff.2 hrun), dif_pos h]

theorem outPort_of_prn_unnamed {reg : Byte} (hf : fetch s = .instr (.prn reg)) (h : 8 ≤ reg.toNat) : s.outPort = none := by
  simp only [State.outPort, hf, dif_neg (Nat.not_lt.2 h), ite_self]

/-- Settles O16: one fetch decides both the step and the port. -/
theorem prnEmitsRegister : Obligations.PrnEmitsRegister := by
  intro s hrun hp hop
  have hfetch := fetch_opcode (o := .prn) hp hop
  refine ⟨fun hlast => ⟨?operand0, ?operand0Port⟩, fun hfit hreg => ⟨?register, ?registerPort⟩,
    fun hfit hreg => ⟨?completed, ?completedPort⟩⟩
  case operand0 => exact step_of_missing_operand (o := .prn) (k := 0) hrun hop (by decide) hp (by omega)
  case operand0Port =>
    have hmissing : ¬ s.pc.toNat + 1 < 256 := by omega
    exact outPort_of_fetch_missing (hfetch.trans (if_neg hmissing))
  case register => exact step_of_unnamed_operand0 (o := .prn) hrun hop hfit hreg rfl
  case registerPort => exact outPort_of_prn_unnamed (hfetch.trans (if_pos hfit)) hreg
  case completed =>
    rw [step_of_opcode (o := .prn) hrun hop hfit, ← pc_add_ofNat]
    exact (prnAndHltComplete s).1 _ hreg
  case completedPort => exact outPort_of_prn_named hrun (hfetch.trans (if_pos hfit)) hreg

end Sys2Proof.Machine
end

section
/-! The jumps (R130..R134): JMP's meaning, which a taken JEQ or JNE shares; `REG_RANGE` wherever a byte of 8 or more is used as a register
(R147); and the steps over 0x54, 0x55 and 0x56. -/

namespace Sys2Proof.Machine

variable {s : State}

/-! ### The meanings over an operand that names a register, and not taken -/

theorem execJmp_named {reg : Byte} (h : reg.toNat < 8) :
    exec (.jmp reg) s = .next { s with pc := BitVec.ofNat 9 s.x[reg.toNat].toNat } := by
  rw [← zext9_eq_ofNat]
  exact congrArg Host.Outcome.next (withReg_named h _)

/-- Settles O23: a taken JEQ or JNE is a JMP, and one that is not taken is an advance by 2. -/
theorem jumpsComplete : Obligations.JumpsComplete := by
  refine fun s reg => ⟨fun h => ⟨execJmp_named h, fun heq => ?jeq, fun hne => ?jne⟩, execJeq_not_taken reg, execJne_not_taken reg⟩
  case jeq => exact (execJeq_taken reg heq).trans (execJmp_named h)
  case jne => exact (execJne_taken reg hne).trans (execJmp_named h)

/-- Of the four values of R30 only `EQUAL` has bit 0 set (R134). -/
theorem FlLegal.eq_equal_iff_bit0 {fl : Byte} (h : FlLegal fl) : fl = 0b001 ↔ fl.getLsbD 0 = true := by
  obtain rfl | rfl | rfl | rfl := h <;> decide

/-- Settles O27: each of JEQ and JNE is a JMP on one side of the test and an advance on the other. -/
theorem jeqAndJneAreComplements : Obligations.JeqAndJneAreComplements :=
  fun _ reg =>
    ⟨fun heq => ⟨execJeq_taken reg heq, execJne_not_taken reg heq⟩,
      fun hne => ⟨execJne_taken reg hne, execJeq_not_taken reg hne⟩,
      FlLegal.eq_equal_iff_bit0⟩

/-! ### `REG_RANGE` in the meanings -/

/-- The fault of operand0 in a pair of checks: operand1 is not looked at (R152). -/
theorem withRegPair_faultedWith_operand0 {a : Byte} (ha : 8 ≤ a.toNat) (b : Byte) (andThen : Fin 8 → Fin 8 → State) :
    withRegPair a b s andThen = s.FaultedWith .regRange a.toNat :=
  withReg_faultedWith ha _

/-- The fault of operand1 in a pair of checks, after operand0 has passed (R152). -/
theorem withRegPair_faultedWith_operand1 {a b : Byte} (ha : a.toNat < 8) (hb : 8 ≤ b.toNat) (andThen : Fin 8 → Fin 8 → State) :
    withRegPair a b s andThen = s.FaultedWith .regRange b.toNat :=
  (withReg_named ha _).trans (withReg_faultedWith hb _)

theorem execJmp_unnamed {reg : Byte} (h : 8 ≤ reg.toNat) : exec (.jmp reg) s = .next (s.FaultedWith .regRange reg.toNat) :=
  congrArg Host.Outcome.next (withReg_faultedWith h _)

/-- Settles O24: the byte stops the check that meets it, in a single check, in either place of a pair, and in a jump when it is taken. -/
theorem regRangeRaised : Obligations.RegRangeRaised := by
  intro s reg other h
  refine ⟨?ldi, ?mul, ?cmp, fun hother => ⟨?mulOperand1, ?cmpOperand1⟩, ?prn, execJmp_unnamed h,
    fun heq => ⟨?jeqTaken, execJne_not_taken reg heq⟩, fun hne => ⟨?jneTaken, execJeq_not_taken reg hne⟩⟩
  case ldi | prn => exact congrArg Host.Outcome.next (withReg_faultedWith h _)
  case mul | cmp => exact congrArg Host.Outcome.next (withRegPair_faultedWith_operand0 h other _)
  case mulOperand1 | cmpOperand1 => exact congrArg Host.Outcome.next (withRegPair_faultedWith_operand1 hother h _)
  case jeqTaken => exact (execJeq_taken reg heq).trans (execJmp_unnamed h)
  case jneTaken => exact (execJne_taken reg hne).trans (execJmp_unnamed h)

/-! ### The steps over the jumps -/

/-- The step over a jump that is taken, whichever of the three it is: both ends of its one check. -/
theorem step_of_taken_jump {o : Opcode} (hrun : s.Running) (hop : s.byteAt 0 = o.byte)
    (hfit : s.pc.toNat + o.format.operands < 256)
    (hexec : exec (o.withOperands (s.byteAt 1) (s.byteAt 2)) s = exec (.jmp (s.byteAt 1)) s) :
    (8 ≤ (s.byteAt 1).toNat → step s = .next (s.FaultedWith .regRange (s.byteAt 1).toNat)) ∧
    (∀ _ : (s.byteAt 1).toNat < 8, step s = .next { s with pc := BitVec.ofNat 9 s.x[(s.byteAt 1).toNat].toNat }) := by
  rw [step_of_opcode hrun hop hfit, hexec]
  exact ⟨execJmp_unnamed, execJmp_named⟩

/-- The step over a jump that is not taken: its operand byte is fetched and not used. -/
theorem step_of_passed_jump {o : Opcode} (hrun : s.Running) (hop : s.byteAt 0 = o.byte)
    (hfit : s.pc.toNat + o.format.operands < 256)
    (hexec : exec (o.withOperands (s.byteAt 1) (s.byteAt 2)) s = .next (s.advance 2)) :
    step s = .next { s with pc := BitVec.ofNat 9 (s.pc.toNat + 2) } := by
  rw [step_of_opcode hrun hop hfit, hexec, ← pc_add_ofNat]
  rfl

/-- Settles O17: JMP is always taken. -/
theorem jmpGoesToRegister : Obligations.JmpGoesToRegister := by
  intro s hrun hp hop
  have htaken (hfit : s.pc.toNat + 1 < 256) := step_of_taken_jump (o := .jmp) hrun hop hfit rfl
  refine ⟨fun hlast => ?missing, fun hfit => (htaken hfit).1, fun hfit => (htaken hfit).2⟩
  case missing => exact step_of_missing_operand (o := .jmp) (k := 0) hrun hop (by decide) hp (by omega)

/-- Settles O18: the operand byte is fetched before `FL` is looked at; with `EQUAL` the step is that of a JMP. -/
theorem jeqTakenOnEqual : Obligations.JeqTakenOnEqual := by
  intro s hrun hp hop
  have htaken (hfit : s.pc.toNat + 1 < 256) (heq : s.fl = 0b001) :=
    step_of_taken_jump (o := .jeq) hrun hop hfit (execJeq_taken _ heq)
  refine ⟨fun hlast => ?missing, fun hfit heq => (htaken hfit heq).1, fun hfit heq => (htaken hfit heq).2, fun hfit hne => ?passed⟩
  case missing => exact step_of_missing_operand (o := .jeq) (k := 0) hrun hop (by decide) hp (by omega)
  case passed => exact step_of_passed_jump (o := .jeq) hrun hop hfit (execJeq_not_taken _ hne)

/-- Settles O19: as for JEQ, with the complement of its condition. -/
theorem jneTakenOnNotEqual : Obligations.JneTakenOnNotEqual := by
  intro s hrun hp hop
  have htaken (hfit : s.pc.toNat + 1 < 256) (hne : s.fl ≠ 0b001) :=
    step_of_taken_jump (o := .jne) hrun hop hfit (execJne_taken _ hne)
  refine ⟨fun hlast => ?missing, fun hfit hne => (htaken hfit hne).1, fun hfit hne => (htaken hfit hne).2, fun hfit heq => ?passed⟩
  case missing => exact step_of_missing_operand (o := .jne) (k := 0) hrun hop (by decide) hp (by omega)
  case passed => exact step_of_passed_jump (o := .jne) hrun hop hfit (execJne_not_taken _ heq)

end Sys2Proof.Machine
end

section
/-! The output port and the output channel (R158): the port presents a value in exactly the steps over a PRN that completes, and the channel
gains what is presented. -/

namespace Sys2Proof.Machine

variable {s t : State}

/-- The core executes, in the step taken from this state, a PRN whose operand byte exists and names a register, and `v` is that register's
value. -/
def State.Emits (s : State) (v : Byte) : Prop :=
  s.Running ∧ s.pc.toNat + 1 < 256 ∧ s.byteAt 0 = 0x47 ∧ ∃ _ : (s.byteAt 1).toNat < 8, v = s.x[(s.byteAt 1).toNat]

theorem fetch_of_outPort {v : Byte} (h : s.outPort = some v) :
    s.Running ∧ ∃ reg, fetch s = .instr (.prn reg) ∧ ∃ h8 : reg.toNat < 8, v = s.readReg ⟨reg.toNat, h8⟩ := by
  unfold State.outPort at h
  split at h
  · next hexec =>
    split at h
    · next reg hf =>
      split at h
      · next h8 => exact ⟨executes_iff.1 hexec, reg, hf, h8, (Option.some.inj h).symm⟩
      · cases h
    all_goals cases h
  · cases h

theorem withOperands_eq_prn {o : Opcode} {a b reg : Byte} (h : o.withOperands a b = .prn reg) : o = .prn ∧ a = reg := by
  cases o with
  | prn => exact ⟨rfl, Instr.prn.inj h⟩
  | hlt | ldi | mul | cmp | jmp | jeq | jne => cases h

/-- Only the bytes of a PRN are fetched as one. -/
theorem bytes_of_fetch_prn {reg : Byte} (hf : fetch s = .instr (.prn reg)) :
    s.pc.toNat + 1 < 256 ∧ s.byteAt 0 = 0x47 ∧ s.byteAt 1 = reg := by
  rcases fetch_cases s with ⟨-, e⟩ | ⟨-, -, e⟩ | ⟨o, hop, hfit, e⟩ | ⟨o, -, -, -, e⟩
  · cases hf.symm.trans e
  · cases hf.symm.trans e
  · obtain ⟨rfl, hreg⟩ := withOperands_eq_prn (Decoded.instr.inj (e.symm.trans hf))
    exact ⟨hfit, hop, hreg⟩
  · cases hf.symm.trans e

theorem outPort_eq_some_iff {v : Byte} : s.outPort = some v ↔ s.Emits v := by
  constructor
  · intro h
    obtain ⟨hrun, reg, hf, h8, hv⟩ := fetch_of_outPort h
    obtain ⟨hfit, hop, rfl⟩ := bytes_of_fetch_prn hf
    exact ⟨hrun, hfit, hop, h8, hv⟩
  · rintro ⟨hrun, hfit, hop, h8, rfl⟩
    have hp : s.pc.toNat < 256 := by omega
    exact ((prnEmitsRegister s hrun hp hop).2.2 hfit h8).2

/-- The step that presents a value appends it to the channel. -/
theorem out_of_emits {v : Byte} (hemit : s.Emits v) (hstep : step s = .next t) : t.out = s.out ++ [v] := by
  obtain ⟨hrun, hfit, hop, h8, rfl⟩ := hemit
  have hp : s.pc.toNat < 256 := by omega
  have ⟨hprn, _⟩ := (prnEmitsRegister s hrun hp hop).2.2 hfit h8
  obtain rfl := Host.Outcome.next.inj (hstep.symm.trans hprn)
  rfl

/-- Of the outcomes of a running core's step only that of a PRN that completes changes the channel. -/
theorem out_of_not_emits (hrun : s.Running) (hnone : ∀ v, ¬ s.Emits v) (hstep : step s = .next t) : t.out = s.out := by
  rcases step_running_cases hrun with ⟨_, _, -, e⟩ | ⟨-, -, e⟩ | ⟨_, _, -, -, -, e⟩ | ⟨_, _, -, -, e⟩ | ⟨h8, hop, hfit, -⟩ |
    ⟨_, -, -, e⟩ | ⟨-, -, -, e⟩ | ⟨-, -, -, e⟩
  case inr.inr.inr.inr.inl => exact absurd ⟨hrun, hfit, hop, h8, rfl⟩ (hnone _)
  all_goals
    obtain rfl := Host.Outcome.next.inj (hstep.symm.trans e)
    rfl

theorem out_of_step (hrst : s.rst = false) (hstep : step s = .next t) : t.out = s.out ++ s.outPort.toList := by
  cases hport : s.outPort with
  | some v => exact out_of_emits (outPort_eq_some_iff.1 hport) hstep
  | none =>
    rw [Option.toList_none, List.append_nil]
    obtain ⟨-, hrun | rfl⟩ := step_next_of_rst_false hrst hstep
    · refine out_of_not_emits hrun (fun v hemit => ?_) hstep
      cases hport.symm.trans (outPort_eq_some_iff.2 hemit)
    · rfl

/-- Settles O35: what the channel gains, and when the port presents a value. -/
theorem outputPortMatchesChannel : Obligations.OutputPortMatchesChannel :=
  ⟨fun _ _ => out_of_step, fun _ _ => outPort_eq_some_iff⟩

end Sys2Proof.Machine
end

section
/-! Faults (R146, R152, R153). R152's list is a chain of alternatives: a step reports the first condition that holds, and completes where none
does. That a fault is one of the list's, and precise, are read off the chain. -/

namespace Sys2Proof.Machine

variable {s t : State}

/-! ### A chain of fault conditions -/

/-- The step from `s` reports the first of these conditions that holds, and does not fault where none does. -/
def State.ReportsFirst (s : State) : List (Prop × FaultCause × Nat) → Prop
  | [] => ∃ t, step s = .next t ∧ t.status ≠ .faulted
  | (c, cause, info) :: conditions =>
    (c → step s = .next (s.FaultedWith cause info)) ∧ (¬ c → s.ReportsFirst conditions)

theorem State.ReportsFirst.step_of_first {conditions : List (Prop × FaultCause × Nat)} {k : Nat} {c : Prop} {cause : FaultCause}
    {info : Nat} (h : s.ReportsFirst conditions) (hk : conditions[k]? = some (c, cause, info)) (hc : c)
    (hbefore : ∀ j e, j < k → conditions[j]? = some e → ¬ e.1) : step s = .next (s.FaultedWith cause info) := by
  induction conditions generalizing k with
  | nil => cases hk
  | cons e conditions ih =>
    obtain ⟨hhead, htail⟩ := h
    cases k with
    | zero =>
      cases hk
      exact hhead hc
    | succ k =>
      have hfirst : ¬ e.1 := hbefore 0 e (Nat.succ_pos k) rfl
      exact ih (htail hfirst) hk fun j e' hj => hbefore (j + 1) e' (Nat.succ_lt_succ hj)

theorem State.ReportsFirst.step_of_none {conditions : List (Prop × FaultCause × Nat)} (h : s.ReportsFirst conditions)
    (hnone : ∀ e, e ∈ conditions → ¬ e.1) : ∃ t, step s = .next t ∧ t.status ≠ .faulted := by
  induction conditions with
  | nil => exact h
  | cons e conditions ih =>
    obtain ⟨-, htail⟩ := h
    have hfirst : ¬ e.1 := hnone e List.mem_cons_self
    exact ih (htail hfirst) fun e' he' => hnone e' (List.mem_cons_of_mem e he')

/-- A fault is that of a condition of the chain. -/
theorem State.ReportsFirst.exists_of_faulted {conditions : List (Prop × FaultCause × Nat)} (h : s.ReportsFirst conditions)
    (hstep : step s = .next t) (hfault : t.status = .faulted) :
    ∃ c cause info, (c, cause, info) ∈ conditions ∧ c ∧ t = s.FaultedWith cause info := by
  induction conditions with
  | nil =>
    obtain ⟨u, hu, hsafe⟩ := h
    obtain rfl := Host.Outcome.next.inj (hstep.symm.trans hu)
    exact absurd hfault hsafe
  | cons e conditions ih =>
    obtain ⟨c, cause, info⟩ := e
    obtain ⟨hhead, htail⟩ := h
    by_cases hc : c
    · exact ⟨c, cause, info, List.mem_cons_self, hc, Host.Outcome.next.inj (hstep.symm.trans (hhead hc))⟩
    · obtain ⟨c', cause', info', hmem, hholds⟩ := ih (htail hc)
      exact ⟨c', cause', info', List.mem_cons_of_mem _ hmem, hholds⟩

/-! ### The conditions of R152, one by one -/

theorem mem_twoByte_append_threeByte {b : Byte} :
    b ∈ twoByteOpcodes ++ threeByteOpcodes ↔ ∃ o : Opcode, b = o.byte ∧ 1 ≤ o.format.operands := by
  rw [List.mem_append, mem_twoByteOpcodes, mem_threeByteOpcodes]
  constructor
  · rintro (⟨o, hb, ho⟩ | ⟨o, hb, ho⟩)
    · exact ⟨o, hb, by omega⟩
    · exact ⟨o, hb, by omega⟩
  · rintro ⟨o, hb, ho⟩
    have := o.operands_le
    obtain h1 | h2 : o.format.operands = 1 ∨ o.format.operands = 2 := by omega
    · exact .inl ⟨o, hb, h1⟩
    · exact .inr ⟨o, hb, h2⟩

theorem step_of_missing_opcode (hrun : s.Running) (hp : 256 ≤ s.pc.toNat) :
    step s = .next (s.FaultedWith .memRange s.pc.toNat) :=
  step_of_fetch_missing hrun (fetch_past_memory hp)

theorem step_of_missing_operand0 (hrun : s.Running) (hp : s.pc.toNat < 256) (hop : s.byteAt 0 ∈ twoByteOpcodes ++ threeByteOpcodes)
    (hmissing : 256 ≤ s.pc.toNat + 1) : step s = .next (s.FaultedWith .memRange (s.pc.toNat + 1)) := by
  obtain ⟨o, hb, ho⟩ := mem_twoByte_append_threeByte.1 hop
  exact step_of_missing_operand (k := 0) hrun hb ho hp hmissing

theorem step_of_missing_operand1 (hrun : s.Running) (hlast : s.pc.toNat + 1 < 256) (hop : s.byteAt 0 ∈ threeByteOpcodes)
    (hmissing : 256 ≤ s.pc.toNat + 2) : step s = .next (s.FaultedWith .memRange (s.pc.toNat + 2)) := by
  obtain ⟨o, hb, ho⟩ := mem_threeByteOpcodes.1 hop
  exact step_of_missing_operand (k := 1) hrun hb (by omega) hlast hmissing

/-- Where neither operand byte is missing, the whole instruction lies below 256. -/
theorem operands_fit {o : Opcode} (hb : s.byteAt 0 = o.byte) (hp : s.pc.toNat < 256)
    (h0 : ¬ (s.byteAt 0 ∈ twoByteOpcodes ++ threeByteOpcodes ∧ 256 ≤ s.pc.toNat + 1))
    (h1 : ¬ (s.byteAt 0 ∈ threeByteOpcodes ∧ 256 ≤ s.pc.toNat + 2)) : s.pc.toNat + o.format.operands < 256 := by
  have hle := o.operands_le
  have hone (ho : 1 ≤ o.format.operands) : s.pc.toNat + 1 < 256 :=
    Nat.not_le.1 fun hmissing => h0 ⟨mem_twoByte_append_threeByte.2 ⟨o, hb, ho⟩, hmissing⟩
  have htwo (ho : o.format.operands = 2) : s.pc.toNat + 2 < 256 :=
    Nat.not_le.1 fun hmissing => h1 ⟨mem_threeByteOpcodes.2 ⟨o, hb, ho⟩, hmissing⟩
  omega

theorem checksOperand0_jeq {fl : Byte} : checksOperand0 Opcode.jeq.byte fl ↔ fl = flEqual := by
  simp [checksOperand0, takenWith, Opcode.byte, flEqual]

theorem checksOperand0_jne {fl : Byte} : checksOperand0 Opcode.jne.byte fl ↔ fl ≠ flEqual := by
  simp [checksOperand0, takenWith, Opcode.byte, flEqual]

/-- The meaning of an opcode that uses operand0 as a register, over a byte that names none. -/
theorem exec_of_unnamed_operand0 {o : Opcode} {a b : Byte} (hcheck : checksOperand0 o.byte s.fl) (ha : 8 ≤ a.toNat) :
    exec (o.withOperands a b) s = .next (s.FaultedWith .regRange a.toNat) := by
  obtain ⟨hldi, hmul, hcmp, -, hprn, hjmp, hjeq, hjne⟩ := regRangeRaised s a b ha
  cases o with
  | hlt => simp [checksOperand0, takenWith, Opcode.byte] at hcheck
  | ldi => exact hldi
  | mul => exact hmul
  | prn => exact hprn
  | cmp => exact hcmp
  | jmp => exact hjmp
  | jeq => exact (hjeq (checksOperand0_jeq.1 hcheck)).1
  | jne => exact (hjne (checksOperand0_jne.1 hcheck)).1

/-- The two opcodes that use operand1 as a register. -/
theorem mul_or_cmp_of_checks_operand1 {o : Opcode} (h : o.byte ∈ [(0xA2 : Byte), 0xA7]) : o = .mul ∨ o = .cmp := by
  revert h
  cases o <;> decide

/-- The meaning of an opcode that uses operand1 as a register, over a byte that names none, where operand0's check passes. -/
theorem exec_of_unnamed_operand1 {o : Opcode} {a b : Byte} (hcheck : o.byte ∈ [(0xA2 : Byte), 0xA7])
    (ha : ¬ (checksOperand0 o.byte s.fl ∧ 8 ≤ a.toNat)) (hb : 8 ≤ b.toNat) :
    exec (o.withOperands a b) s = .next (s.FaultedWith .regRange b.toNat) := by
  obtain ⟨-, -, -, hpair, -⟩ := regRangeRaised s b a hb
  obtain rfl | rfl := mul_or_cmp_of_checks_operand1 hcheck
  · exact (hpair (Nat.not_le.1 fun h => ha ⟨.inl (by decide), h⟩)).1
  · exact (hpair (Nat.not_le.1 fun h => ha ⟨.inl (by decide), h⟩)).2

/-- A meaning whose register checks all pass completes. -/
theorem exec_of_passed_checks {o : Opcode} {a b : Byte} (hsafe : s.status ≠ .faulted)
    (h0 : ¬ (checksOperand0 o.byte s.fl ∧ 8 ≤ a.toNat)) (h1 : ¬ (o.byte ∈ [(0xA2 : Byte), 0xA7] ∧ 8 ≤ b.toNat)) :
    ∃ t, exec (o.withOperands a b) s = .next t ∧ t.status ≠ .faulted := by
  have ha (hcheck : checksOperand0 o.byte s.fl) : a.toNat < 8 := Nat.not_le.1 fun h => h0 ⟨hcheck, h⟩
  have hb (hcheck : o.byte ∈ [(0xA2 : Byte), 0xA7]) : b.toNat < 8 := Nat.not_le.1 fun h => h1 ⟨hcheck, h⟩
  cases o with
  | hlt => exact ⟨_, execHlt_eq, by simp⟩
  | ldi => exact ⟨_, execLdi_named b (ha (.inl (by decide))), hsafe⟩
  | mul => exact ⟨_, execMul_named (ha (.inl (by decide))) (hb (by decide)), hsafe⟩
  | prn => exact ⟨_, execPrn_named (ha (.inl (by decide))), hsafe⟩
  | cmp => exact ⟨_, execCmp_named (ha (.inl (by decide))) (hb (by decide)), hsafe⟩
  | jmp => exact ⟨_, execJmp_named (ha (.inl (by decide))), hsafe⟩
  | jeq =>
    by_cases hfl : s.fl = flEqual
    · exact ⟨_, (execJeq_taken a hfl).trans (execJmp_named (ha (checksOperand0_jeq.2 hfl))), hsafe⟩
    · exact ⟨_, execJeq_not_taken a hfl, hsafe⟩
  | jne =>
    by_cases hfl : s.fl = flEqual
    · exact ⟨_, execJne_not_taken a hfl, hsafe⟩
    · exact ⟨_, (execJne_taken a hfl).trans (execJmp_named (ha (checksOperand0_jne.2 hfl))), hsafe⟩

/-! ### The whole list -/

/-- A step over an instruction that lies below 256, by its register checks: the last two conditions of R152. -/
theorem reportsFirst_register_checks {o : Opcode} (hrun : s.Running) (hb : s.byteAt 0 = o.byte)
    (hfit : s.pc.toNat + o.format.operands < 256) : s.ReportsFirst (s.faultConditions.drop 4) := by
  have ⟨_, _, hstatus⟩ := hrun
  have hsafe : s.status ≠ .faulted := by simp [hstatus]
  have hexec : step s = exec (o.withOperands (s.byteAt 1) (s.byteAt 2)) s := step_of_opcode hrun hb hfit
  simp only [State.faultConditions, List.drop_succ_cons, List.drop_zero, State.ReportsFirst, hb, hexec]
  exact ⟨fun ⟨hcheck, ha⟩ => exec_of_unnamed_operand0 hcheck ha, fun h0 =>
    ⟨fun ⟨hcheck, ha⟩ => exec_of_unnamed_operand1 hcheck h0 ha, exec_of_passed_checks hsafe h0⟩⟩

theorem mem_opcodeBytes_of_checksOperand0 {op fl : Byte} (h : checksOperand0 op fl) : op ∈ opcodeBytes := by
  have hsubset : ∀ b ∈ [(0x82 : Byte), 0xA2, 0xA7, 0x47, 0x54], b ∈ opcodeBytes := by decide
  obtain h | ⟨rfl, -⟩ | ⟨rfl, -⟩ := h
  · exact hsubset op h
  · decide
  · decide

theorem mem_opcodeBytes_of_checks_operand1 {op : Byte} (h : op ∈ [(0xA2 : Byte), 0xA7]) : op ∈ opcodeBytes := by
  have hsubset : ∀ b ∈ [(0xA2 : Byte), 0xA7], b ∈ opcodeBytes := by decide
  exact hsubset op h

/-- A byte outside the opcode table meets none of the last two conditions of R152, and a step that does not report it passes it. -/
theorem reportsFirst_unknown (hrun : s.Running) (hp : s.pc.toNat < 256) (hop : s.byteAt 0 ∉ opcodeBytes)
    (hpolicy : s.config.unknownOpcodePolicy ≠ .fault) : s.ReportsFirst (s.faultConditions.drop 4) := by
  have ⟨_, _, hstatus⟩ := hrun
  have hlegacy : s.config.unknownOpcodePolicy = .legacyNop := by
    cases h : s.config.unknownOpcodePolicy with
    | fault => exact absurd h hpolicy
    | legacyNop => rfl
  refine ⟨fun ⟨hcheck, _⟩ => absurd (mem_opcodeBytes_of_checksOperand0 hcheck) hop, fun _ =>
    ⟨fun ⟨hcheck, _⟩ => absurd (mem_opcodeBytes_of_checks_operand1 hcheck) hop, fun _ =>
      ⟨_, step_over_unknown_byte hrun hlegacy hp hop, ?_⟩⟩⟩
  simp [hstatus]

/-- The conditions of R152 are those of the step, in its order: the fetch's first, then the register checks of what is fetched. -/
theorem reportsFirst_faultConditions (hrun : s.Running) : s.ReportsFirst s.faultConditions := by
  refine ⟨step_of_missing_opcode hrun, fun h => ?_⟩
  have hp : s.pc.toNat < 256 := Nat.not_le.1 h
  refine ⟨fun ⟨hop, hpolicy⟩ => (unknownOpcodeByPolicy s hrun hp hop).2.1 hpolicy, fun hknown => ?_⟩
  refine ⟨fun ⟨hop, hmissing⟩ => step_of_missing_operand0 hrun hp hop hmissing, fun h0 => ?_⟩
  refine ⟨fun ⟨hop, hmissing⟩ => step_of_missing_operand1 hrun ?_ hop hmissing, fun h1 => ?_⟩
  · exact Nat.not_le.1 fun hmissing0 => h0 ⟨List.mem_append_right _ hop, hmissing0⟩
  cases ho : opcodeOfByte (s.byteAt 0) with
  | some o =>
    have hb : s.byteAt 0 = o.byte := opcodeOfByte_eq_some.1 ho
    exact reportsFirst_register_checks hrun hb (operands_fit hb hp h0 h1)
  | none =>
    have hop : s.byteAt 0 ∉ opcodeBytes := not_mem_opcodeBytes.2 ho
    exact reportsFirst_unknown hrun hp hop fun hpolicy => hknown ⟨hop, hpolicy⟩

/-- Settles O38: both clauses are read off the chain. -/
theorem faultPriority : Obligations.FaultPriority := by
  intro s hrun
  have hchain := reportsFirst_faultConditions hrun
  exact ⟨fun _ _ _ ⟨_, hk, hc, hbefore⟩ => hchain.step_of_first hk hc hbefore, hchain.step_of_none⟩

/-! ### What a fault is -/

/-- Every fault of a running core's step is that of a condition of R152's list. -/
theorem faultCondition_of_faulted (hrun : s.Running) (hstep : step s = .next t) (hfault : t.status = .faulted) :
    ∃ c cause info, (c, cause, info) ∈ s.faultConditions ∧ c ∧ t = s.FaultedWith cause info :=
  (reportsFirst_faultConditions hrun).exists_of_faulted hstep hfault

/-- The reads of R146 that meet an address of 256: the opcode's at 256, operand0's at 255, operand1's at 254. -/
def State.ReadsAt256 (s : State) : Prop :=
  s.pc.toNat = 256 ∨ (s.pc.toNat = 255 ∧ s.byteAt 0 ∈ twoByteOpcodes ++ threeByteOpcodes) ∨
    (s.pc.toNat = 254 ∧ s.byteAt 0 ∈ threeByteOpcodes)

theorem step_of_readsAt256 (hrun : s.Running) (h : s.ReadsAt256) : step s = .next (s.FaultedWith .memRange 256) := by
  obtain hp | ⟨hp, hop⟩ | ⟨hp, hop⟩ := h
  · simpa only [hp] using step_of_missing_opcode hrun (Nat.le_of_eq hp.symm)
  · simpa only [hp] using step_of_missing_operand0 hrun (by omega) hop (by omega)
  · simpa only [hp] using step_of_missing_operand1 hrun (by omega) hop (by omega)

/-- From a `pc` of at most 256, a `MEM_RANGE` condition of R152 that holds is a read at 256. -/
theorem readsAt256_of_faultCondition {c : Prop} {info : Nat} (hp : s.pc.toNat ≤ 256)
    (hmem : (c, FaultCause.memRange, info) ∈ s.faultConditions) (hc : c) : s.ReadsAt256 := by
  simp only [State.faultConditions, List.mem_cons, Prod.mk.injEq, reduceCtorEq, false_and, and_false, false_or, or_false,
    List.not_mem_nil, true_and] at hmem
  obtain ⟨rfl, -⟩ | ⟨rfl, -⟩ | ⟨rfl, -⟩ := hmem
  · exact .inl (Nat.le_antisymm hp hc)
  · obtain ⟨hop, hmissing⟩ := hc
    obtain hlast | hlast : s.pc.toNat = 256 ∨ s.pc.toNat = 255 := by omega
    · exact .inl hlast
    · exact .inr (.inl ⟨hlast, hop⟩)
  · obtain ⟨hop, hmissing⟩ := hc
    obtain hlast | hlast | hlast : s.pc.toNat = 256 ∨ s.pc.toNat = 255 ∨ s.pc.toNat = 254 := by omega
    · exact .inl hlast
    · exact .inr (.inl ⟨hlast, List.mem_append_right _ hop⟩)
    · exact .inr (.inr ⟨hlast, hop⟩)

/-- Settles O8: the three reads are R152's conditions of the cause `MEM_RANGE`. -/
theorem memRangeCases : Obligations.MemRangeCases := by
  intro s hrun hp
  refine ⟨step_of_readsAt256 hrun, fun t hstep hfault hcause => ?_⟩
  obtain ⟨c, cause, info, hmem, hc, rfl⟩ := faultCondition_of_faulted hrun hstep hfault
  obtain rfl : cause = .memRange := Option.some.inj hcause
  exact readsAt256_of_faultCondition hp hmem hc

/-- Settles O39: a fault is written by `FaultedWith`, which leaves the output channel alone, so nothing was presented. -/
theorem faultsArePrecise : Obligations.FaultsArePrecise := by
  intro s t hrun hstep hfault
  have ⟨hrst, _, _⟩ := hrun
  obtain ⟨_, cause, info, -, -, rfl⟩ := faultCondition_of_faulted hrun hstep hfault
  have hout : s.out = s.out ++ s.outPort.toList := out_of_step (t := s.FaultedWith cause info) hrst hstep
  exact ⟨cause, BitVec.ofNat 9 info, rfl, Option.toList_eq_nil_iff.1 (List.self_eq_append_right.1 hout)⟩

end Sys2Proof.Machine
end

section
/-! Booting a program file (R150, R173, R174): while `rst` is 1 each byte is one host write, so the loader stores the program's bytes at
rising addresses and changes nothing else. -/

namespace Sys2Proof.Machine

/-! ### Bytes stored at rising addresses -/

theorem read_storeBytes_of_lt {bytes : List Byte} {k a : Nat} {m : Memory} (hm : Memory.wf m = true) (ha : a < k) :
    Memory.read (storeBytes bytes k m) a = Memory.read m a := by
  induction bytes generalizing k m with
  | nil => rfl
  | cons b rest ih =>
    rw [storeBytes]
    by_cases hk : k < 256
    · rw [if_pos hk, ih (Memory.wf_write hm hk) (Nat.lt_succ_of_lt ha), Memory.read_write _ _ _ hm, if_neg (Nat.ne_of_lt ha)]
    · rw [if_neg hk, ih hm (Nat.lt_succ_of_lt ha)]

/-- The cell at offset `i` from the first address: byte `i`, or what it held before where there is no such byte. -/
theorem read_storeBytes_add {bytes : List Byte} {k : Nat} {m : Memory} (hm : Memory.wf m = true) (hfit : k + bytes.length ≤ 256)
    (i : Nat) : Memory.read (storeBytes bytes k m) (k + i) = bytes[i]?.getD (Memory.read m (k + i)) := by
  induction bytes generalizing k m i with
  | nil => rfl
  | cons b rest ih =>
    rw [List.length_cons] at hfit
    have hk : k < 256 := by omega
    have hwrite : Memory.wf (Memory.write m k b) = true := Memory.wf_write hm hk
    rw [storeBytes, if_pos hk]
    cases i with
    | zero =>
      rw [Nat.add_zero k, read_storeBytes_of_lt hwrite (Nat.lt_add_one k), Memory.read_write _ _ _ hm, if_pos rfl]
      rfl
    | succ i =>
      have hother : ¬ k + 1 + i = k := by omega
      have hoffset : k + (i + 1) = k + 1 + i := by omega
      rw [hoffset, ih hwrite (by omega), Memory.read_write _ _ _ hm, if_neg hother, List.getElem?_cons_succ]

/-! ### The loader -/

/-- The state in which `boot` writes: `rst` asserted, no host write requested. -/
def State.heldForBoot (s : State) : State := { s.assertRst with hostWrite := none }

variable {s : State}

theorem hostStore_heldForBoot (m : Memory) (addr data : Byte) :
    hostStore addr data (s.heldForBoot.withMem m) = .next (s.heldForBoot.withMem (Memory.write m addr.toNat data)) := rfl

/-- The loader's host writes are the model's own `storeBytes`. -/
theorem loadBytes_heldForBoot {bytes : List Byte} {k : Nat} (m : Memory) (hfit : k + bytes.length ≤ 256) :
    loadBytes k bytes (s.heldForBoot.withMem m) = .ok (s.heldForBoot.withMem (storeBytes bytes k m)) := by
  induction bytes generalizing k m with
  | nil => rfl
  | cons b rest ih =>
    rw [List.length_cons] at hfit
    have hk : k < 256 := by omega
    have haddr : (BitVec.ofNat 8 k).toNat = k := Nat.mod_eq_of_lt hk
    rw [loadBytes, if_pos hk, hostStore_heldForBoot, haddr, storeBytes, if_pos hk]
    exact ih _ (by omega)

theorem parseProgramFile_of_parseLines {lines : List (List Char)} {bytes : List Byte} (hparse : parseLines 0 lines = .ok bytes) :
    parseProgramFile lines = if 256 < bytes.length then .error .tooLong else .ok bytes := by
  rw [parseProgramFile, hparse]

theorem bootFile_of_fits {lines : List (List Char)} {bytes : List Byte} (hparse : parseLines 0 lines = .ok bytes)
    (hfit : bytes.length ≤ 256) :
    bootFile lines s = .released (s.heldForBoot.withMem (storeBytes bytes 0 s.mem)).releaseRst := by
  have hload : loadBytes 0 bytes { s.assertRst with hostWrite := none } =
      .ok (s.heldForBoot.withMem (storeBytes bytes 0 s.mem)) := loadBytes_heldForBoot s.mem (by omega)
  have hshort : ¬ 256 < bytes.length := Nat.not_lt.2 hfit
  simp only [bootFile, parseProgramFile_of_parseLines hparse, boot, if_neg hshort, hload]

theorem bootFile_of_too_long {lines : List (List Char)} {bytes : List Byte} (hparse : parseLines 0 lines = .ok bytes)
    (hlong : 256 < bytes.length) : bootFile lines s = .loadError .tooLong s.heldForBoot := by
  simp only [bootFile, parseProgramFile_of_parseLines hparse, if_pos hlong, State.heldForBoot]

/-- Settles O47: the bytes are stored from address 0 on, or the file is refused before anything is written. -/
theorem bootLoadsProgramFile : Obligations.BootLoadsProgramFile := by
  intro s lines bytes hm hparse
  refine ⟨fun hfit => ⟨_, bootFile_of_fits hparse hfit, ⟨rfl, rfl, rfl⟩, ⟨rfl, rfl, rfl, rfl, rfl, rfl⟩, fun a => ?_⟩,
    fun hlong => ⟨_, bootFile_of_too_long hparse hlong, rfl, ⟨rfl, rfl, rfl, rfl, rfl, rfl⟩, rfl⟩⟩
  have hread := read_storeBytes_add (bytes := bytes) (k := 0) hm (by omega) a
  rw [Nat.zero_add] at hread
  exact hread.trans (List.getD_getElem? ..)

end Sys2Proof.Machine
end

section
/-! Reset and hazards (R170, R175). A core under `rst` executes nothing, so its ports show nothing and its step is `holdInReset`. Of two
packed instructions the second is fetched where the first leaves `pc`, from the same memory, and executed in the state the first leaves. -/

namespace Sys2Proof.Machine

variable {s t : State}

/-! ### Reset -/

/-- Settles O31: reset holds the values of R170, and its memory lists no cell. -/
theorem resetMeetsInvariant : Obligations.ResetMeetsInvariant :=
  State.HeldInReset.inv (s := State.reset) ⟨rfl, rfl, rfl, rfl, rfl, rfl⟩ rfl

theorem holdInReset_rst (s : State) : s.holdInReset.rst = s.rst := by
  unfold State.holdInReset
  split <;> rfl

/-- With no host write requested, holding the core in reset is taking it to the reset values. -/
theorem holdInReset_of_no_write (h : s.hostWrite = none) : s.holdInReset = s.resetCore := by
  rw [State.holdInReset, h]

theorem executes_of_rst (h : s.rst = true) : s.executes = false := by simp [State.executes, h]

theorem outPort_of_rst (h : s.rst = true) : s.outPort = none := by simp [State.outPort, executes_of_rst h]

theorem readAddresses_of_rst (h : s.rst = true) : s.readAddresses = [] := by simp [State.readAddresses, executes_of_rst h]

/-- A core held in reset with no host write requested is held just as it is. -/
theorem step_assertRst (h : s.hostWrite = none) : step s.assertRst = .next s.assertRst := by
  have hidle : s.assertRst.hostWrite = none := h
  calc step s.assertRst = .next s.assertRst.holdInReset := step_of_rst rfl
    _ = .next s.assertRst.resetCore := by rw [holdInReset_of_no_write hidle]
    _ = .next s.assertRst := rfl

/-- Settles O45: `assertRst` writes the reset values; under `rst` a step is `holdInReset` and nothing executes; `releaseRst` changes
`rst` alone. -/
theorem resetFromAnyState : Obligations.ResetFromAnyState := by
  intro s
  refine ⟨⟨rfl, rfl, rfl, rfl, rfl, rfl⟩, rfl, rfl, fun hrst => ?held, fun hwrite => ?released⟩
  case held =>
    refine ⟨_, step_of_rst hrst, holdInReset_heldInReset s, (holdInReset_rst s).trans hrst, fun hwrite => ?_,
      outPort_of_rst hrst, readAddresses_of_rst hrst⟩
    rw [holdInReset_of_no_write hwrite, State.resetCore_mem]
  case released => exact ⟨step_assertRst hwrite, ⟨rfl, hwrite, rfl⟩, ⟨rfl, rfl, rfl, rfl, rfl, rfl⟩⟩

/-! ### Two packed instructions -/

theorem State.HoldsAt.append_left {a : Nat} {xs ys : List Byte} (h : s.HoldsAt a (xs ++ ys)) : s.HoldsAt a xs := by
  obtain ⟨hfit, hbytes⟩ := h
  rw [List.length_append] at hfit
  refine ⟨by omega, fun k hk => ?_⟩
  rw [hbytes k (by rw [List.length_append]; omega), List.getElem_append_left hk]

theorem State.HoldsAt.append_right {a : Nat} {xs ys : List Byte} (h : s.HoldsAt a (xs ++ ys)) :
    s.HoldsAt (a + xs.length) ys := by
  obtain ⟨hfit, hbytes⟩ := h
  rw [List.length_append] at hfit
  refine ⟨by omega, fun k hk => ?_⟩
  rw [Nat.add_assoc, hbytes _ (by rw [List.length_append]; omega), List.getElem_append_right (Nat.le_add_right _ _)]
  simp only [Nat.add_sub_cancel_left]

/-- Two steps over two packed instructions, where the first leaves `t` before the second, with memory as it was: the meaning of the first,
then the meaning of the second in `t`. -/
theorem run_two_of_holdsAt {i j : Instr} {u : State} (hrun : s.Running) (hbytes : s.HoldsAt s.pc.toNat (encode i ++ encode j))
    (hfirst : exec i s = .next t) (hrun' : t.Running) (hmem : t.mem = s.mem) (hpc : t.pc.toNat = s.pc.toNat + (encode i).length)
    (hsecond : exec j t = .next u) : Sys2Proof.core.run 2 s = .next u := by
  have hstep : step s = .next t := (stepRunsDecodedInstruction s i hrun hbytes.append_left).trans hfirst
  have hnext : t.HoldsAt t.pc.toNat (encode j) := by
    rw [State.HoldsAt, hmem, hpc]
    exact hbytes.append_right
  have hstep' : step t = .next u := (stepRunsDecodedInstruction t j hrun' hnext).trans hsecond
  rw [run_succ_of_step 1 hstep, run_succ_of_step 0 hstep']
  rfl

/-- After an instruction of three bytes with others packed behind it, the next `pc` is exact: it is at most 256. -/
theorem advance_three_pc {i j : Instr} (hbytes : s.HoldsAt s.pc.toNat (encode i ++ encode j)) (hthree : (encode i).length = 3) :
    (s.advance 3).pc.toNat = s.pc.toNat + (encode i).length := by
  obtain ⟨hfit, -⟩ := hbytes.append_left
  rw [hthree] at hfit ⊢
  exact advance_pc_toNat hfit

/-- LDI and any instruction behind it: the second is executed where the register holds the immediate. -/
theorem run_ldi_then {reg v : Byte} {j : Instr} {u : State} (hrun : s.Running) (hreg : reg.toNat < 8)
    (hbytes : s.HoldsAt s.pc.toNat (encode (.ldi reg v) ++ encode j))
    (hsecond : exec j ((s.writeReg ⟨reg.toNat, hreg⟩ v).advance 3) = .next u) : Sys2Proof.core.run 2 s = .next u :=
  run_two_of_holdsAt hrun hbytes (execLdi_named v hreg) hrun rfl (advance_three_pc hbytes rfl) hsecond

/-- CMP and any instruction behind it: the second is executed where `FL` is the comparison. -/
theorem run_cmp_then {a b : Byte} {j : Instr} {u : State} (hrun : s.Running) (ha : a.toNat < 8) (hb : b.toNat < 8)
    (hbytes : s.HoldsAt s.pc.toNat (encode (.cmp a b) ++ encode j))
    (hsecond : exec j ((s.writeFl (compareFlags (s.readReg ⟨a.toNat, ha⟩) (s.readReg ⟨b.toNat, hb⟩))).advance 3) = .next u) :
    Sys2Proof.core.run 2 s = .next u :=
  run_two_of_holdsAt hrun hbytes (execCmp_named ha hb) hrun rfl (advance_three_pc hbytes rfl) hsecond

/-! ### What the second instruction sees -/

@[simp] theorem readReg_advance (n : PcWord) (i : Fin 8) : (s.advance n).readReg i = s.readReg i := rfl

/-- The next `pc` of a JMP through a register, as an exact number. -/
theorem execJmp_pc {reg : Byte} (h : reg.toNat < 8) :
    ∃ t, exec (.jmp reg) s = .next t ∧ t.pc.toNat = (s.readReg ⟨reg.toNat, h⟩).toNat := by
  refine ⟨_, execJmp_named h, ?_⟩
  rw [← zext9_eq_ofNat, zext9_toNat, State.readReg]

theorem compareFlags_eq_equal_iff {a b : Byte} : compareFlags a b = flEqual ↔ a = b := by
  constructor
  · intro h
    obtain ⟨heq, -⟩ | ⟨-, e⟩ | ⟨-, e⟩ := compareFlags_cases a b
    · exact BitVec.eq_of_toNat_eq heq
    · exact absurd (e.symm.trans h) (by decide)
    · exact absurd (e.symm.trans h) (by decide)
  · rintro rfl
    exact compareFlags_self a

theorem run_ldi_prn {reg v : Byte} (hrun : s.Running) (hreg : reg.toNat < 8)
    (hbytes : s.HoldsAt s.pc.toNat (encode (.ldi reg v) ++ encode (.prn reg))) :
    ∃ t, Sys2Proof.core.run 2 s = .next t ∧ t.out = s.out ++ [v] :=
  ⟨_, run_ldi_then hrun hreg hbytes (execPrn_named hreg), by simp⟩

theorem run_ldi_jmp {reg v : Byte} (hrun : s.Running) (hreg : reg.toNat < 8)
    (hbytes : s.HoldsAt s.pc.toNat (encode (.ldi reg v) ++ encode (.jmp reg))) :
    ∃ t, Sys2Proof.core.run 2 s = .next t ∧ t.pc.toNat = v.toNat := by
  obtain ⟨t, hjmp, hpc⟩ := execJmp_pc (s := (s.writeReg ⟨reg.toNat, hreg⟩ v).advance 3) hreg
  exact ⟨t, run_ldi_then hrun hreg hbytes hjmp, by simpa using hpc⟩

/-- A JEQ over the `FL` that a CMP has just written is taken exactly when the compared registers are equal. -/
theorem run_cmp_jeq {a b reg : Byte} (hrun : s.Running) (ha : a.toNat < 8) (hb : b.toNat < 8) (hreg : reg.toNat < 8)
    (hbytes : s.HoldsAt s.pc.toNat (encode (.cmp a b) ++ encode (.jeq reg))) :
    ∃ t, Sys2Proof.core.run 2 s = .next t ∧ t.pc.toNat =
      if s.x[a.toNat] = s.x[b.toNat] then s.x[reg.toNat].toNat else s.pc.toNat + 5 := by
  by_cases heq : s.x[a.toNat] = s.x[b.toNat]
  · rw [if_pos heq]
    obtain ⟨t, hjmp, hpc⟩ :=
      execJmp_pc (s := (s.writeFl (compareFlags s.x[a.toNat] s.x[b.toNat])).advance 3) hreg
    have htaken := (execJeq_taken reg (compareFlags_eq_equal_iff.2 heq)).trans hjmp
    exact ⟨t, run_cmp_then hrun ha hb hbytes htaken, hpc⟩
  · rw [if_neg heq]
    have hpassed := execJeq_not_taken (s := (s.writeFl (compareFlags s.x[a.toNat] s.x[b.toNat])).advance 3) reg
      (mt compareFlags_eq_equal_iff.1 heq)
    have hfit : s.pc.toNat + 5 ≤ 256 := hbytes.1
    refine ⟨_, run_cmp_then hrun ha hb hbytes hpassed, ?_⟩
    rw [advance_advance]
    exact advance_pc_toNat (s := s) (n := 5) hfit

/-- Settles O49: the first instruction writes the register, or `FL`, of the state in which the second is executed. -/
theorem nextInstructionSeesWrites : Obligations.NextInstructionSeesWrites :=
  fun _ _ _ _ _ hrun ha hb hreg => ⟨run_ldi_prn hrun hreg, run_ldi_jmp hrun hreg, run_cmp_jeq hrun ha hb hreg⟩

end Sys2Proof.Machine
end
